-- ==== Sys2Proof/Word.lean ====
section
/-! DEFINITION. The words of the machine: bytes, header words, lanes and the lane array
(spec rules R5, R9 to R11, R20). -/

namespace Sys2Proof

/-- One byte of message, payload, response or output image (R50 a): an unsigned value 0..255. -/
abbrev Byte := BitVec 8

/-- One lane: a 64-bit unsigned word, bit 0 the least significant (R9). -/
abbrev Lane := BitVec 64

/-- The 32-bit header word of a command record (R71). -/
abbrev Word32 := BitVec 32

/-- The 25 lanes, lane `x + 5*y` in column `x` and row `y` (R10, R20). -/
abbrev Lanes := Vector Lane 25

/-- The array whose 25 lanes are all zero. -/
def zeroLanes : Lanes := Vector.replicate 25 0

end Sys2Proof
end

