-- ==== Sys2Proof/Config.lean ====
section
/-! DEFINITION. What is fixed for the machine (R5, R8) and the one value the spec leaves open. -/

namespace Sys2Proof.Config

/-- `MAXLEN`, the longest payload of one ABSORB: `2^24 - 1` bytes (R8). -/
def maxLen : Nat := 16777215

/-- `STATE_BYTES`, the length of the output image: `25 * 64 / 8` bytes (R5). -/
def stateBytes : Nat := 200

/-- `N_ENGINES`, the number of engine instances of a system, by default one (R8, decision D15). -/
def nEngines : Nat := 1

/-- The FREE VALUE of ROTL64 at a count outside its domain 1..63: the spec gives none and forbids a proof
to use one (R90, R174, D19; log entry 8). -/
opaque rotl64Outside : Lane → Nat → Lane

end Sys2Proof.Config
end

