-- ==== Sys2Proof/Machine/Permutation.lean ====
section
/-! DEFINITION. The Permutation component Keccak-f[1600]: its constant tables (R34, R35), the step maps, one round
and the 24 rounds (40_permutation.md). Pure functions of the lanes; none has an encoding (R78). -/

namespace Sys2Proof.Machine

/-- The table of R34 as it stands there: row `r` holds `RC[r]` and `RC[r + 12]`. -/
def roundConstantRows : Vector (Lane × Lane) 12 :=
  #v[(0x0000000000000001, 0x000000008000808B),
     (0x0000000000008082, 0x800000000000008B),
     (0x800000000000808A, 0x8000000000008089),
     (0x8000000080008000, 0x8000000000008003),
     (0x000000000000808B, 0x8000000000008002),
     (0x0000000080000001, 0x8000000000000080),
     (0x8000000080008081, 0x000000000000800A),
     (0x8000000000008009, 0x800000008000000A),
     (0x000000000000008A, 0x8000000080008081),
     (0x0000000000000088, 0x8000000000008080),
     (0x0000000080008009, 0x0000000080000001),
     (0x000000008000000A, 0x8000000080008008)]

/-- `RC[0..23]`, the round constants of Iota in round order: the first column of the table, then the second (R34). -/
def roundConstants : Vector Lane 24 :=
  Vector.ofFn fun r : Fin 24 =>
    if h : r.val < 12 then roundConstantRows[r.val].1 else (roundConstantRows[r.val - 12]'(by omega)).2

/-- `RHO[0..23]`, the rotation offsets by position in the traversal (R35). -/
def rhoOffsets : Vector Nat 24 :=
  #v[1, 3, 6, 10, 15, 21, 28, 36, 45, 55, 2, 14, 27, 41, 56, 8, 25, 43, 62, 18, 39, 61, 20, 44]

/-- `PI[0..23]`, the lane sequence of the traversal (R35). -/
def piSequence : Vector (Fin 25) 24 :=
  #v[10, 7, 11, 17, 18, 3, 5, 16, 8, 21, 24, 4, 15, 23, 19, 13, 12, 2, 20, 14, 22, 9, 6, 1]

/-- ROTL64 on its domain 1..63 (R90); outside it a free value (R174, D19; log entry 8). -/
def rotl64 (v : Lane) (n : Nat) : Lane :=
  if 1 ≤ n ∧ n ≤ 63 then (v <<< n) ||| (v >>> (64 - n)) else Config.rotl64Outside v n

/-- `C[0..4]`, the parities of the five columns (R91). -/
def columnParity (A : Lanes) : Vector Lane 5 :=
  Vector.ofFn fun x : Fin 5 =>
    A[x.val] ^^^ A[x.val + 5] ^^^ A[x.val + 10] ^^^ A[x.val + 15] ^^^ A[x.val + 20]

/-- `D[0..4]`, the Theta terms of the five columns, from their parities (R91). -/
def thetaTerms (C : Vector Lane 5) : Vector Lane 5 :=
  Vector.ofFn fun x : Fin 5 =>
    C[(x.val + 4) % 5]'(Nat.mod_lt _ (by decide)) ^^^
      rotl64 (C[(x.val + 1) % 5]'(Nat.mod_lt _ (by decide))) 1

/-- THETA (R91): all parities are taken from the input array. -/
def theta (A : Lanes) : Lanes :=
  let D := thetaTerms (columnParity A)
  Vector.ofFn fun i : Fin 25 => A[i] ^^^ D[i.val % 5]'(Nat.mod_lt _ (by decide))

/-- One position of the Rho/Pi pass: lane `PI[i]` receives the carried lane rotated by `RHO[i]`, and its old
value is carried on (R92). -/
def rhoPiStep (st : Lanes × Lane) (i : Fin 24) : Lanes × Lane :=
  (st.1.set piSequence[i] (rotl64 st.2 rhoOffsets[i]), st.1[piSequence[i]])

/-- RHO_PI (R92): the pass starts with lane 1 carried (D11) and drops what it carries at the end. -/
def rhoPi (A : Lanes) : Lanes :=
  ((List.finRange 24).foldl rhoPiStep (A, A[1])).1

/-- CHI (R94): every right-hand side reads the input row. -/
def chi (A : Lanes) : Lanes :=
  Vector.ofFn fun i : Fin 25 =>
    A[i] ^^^ ((~~~ A[5 * (i.val / 5) + (i.val % 5 + 1) % 5]'(by omega)) &&&
      A[5 * (i.val / 5) + (i.val % 5 + 2) % 5]'(by omega))

/-- IOTA (R95). -/
def iota (A : Lanes) (r : Fin 24) : Lanes :=
  A.set 0 (A[0] ^^^ roundConstants[r])

/-- ROUND (R96). -/
def keccakRound (A : Lanes) (r : Fin 24) : Lanes :=
  iota (chi (rhoPi (theta A))) r

/-- PERMUTE as a function of the lanes (R97): rounds 0 to 23 in order. Irreducible, so that no comparison of two
states unfolds the rounds; the kernel evaluates it all the same. -/
@[irreducible] def permute (A : Lanes) : Lanes :=
  (List.finRange 24).foldl keccakRound A

end Sys2Proof.Machine
end

