-- ==== Sys2Proof/Syntax.lean ====
section
/-! DEFINITION. The host commands, one constructor per row of spec/opcode_table.json (R70, R83). -/

namespace Sys2Proof

/-- The padding rule, operand `k` of NEW and the field `CFG.RULE` (R7, R25). -/
inductive PadRule where
  | sha3
  | keccak
  deriving DecidableEq, Repr

/-- A host command with its operands already assembled (R77). An illegal header word is no command: the
decoder rejects it (R76). -/
inductive Instr where
  /-- `NEW b, k`: `b` the requested output width in bits, `k` the padding rule (R72, R111). -/
  | new (b : Nat) (k : PadRule)
  /-- `ABSORB bytes`: the payload in message order; `len` is its length (R73, R113). -/
  | absorb (payload : List Byte)
  /-- `FINALIZE`, without operands (R74, R116). -/
  | finalize
  deriving DecidableEq, Repr

end Sys2Proof
end

