-- ==== Sys2Proof/Machine/State.lean ====
section
/-! DEFINITION. The state of one engine, the reasons a step can stop, and the state after reset
(10_state.md; 60_exceptions.md R140; 70_reset_and_hazards.md R170). -/

namespace Sys2Proof.Machine

/-- `PHASE` (R31). -/
inductive Phase where
  | idle
  | absorbing
  | finalized
  deriving DecidableEq, Repr

/-- The engine's four exceptions (R140). -/
inductive Exc where
  | invalidConfiguration
  | invalidState
  | invalidCommand
  | invariantViolation
  deriving DecidableEq, Repr

/-- One response record (R75). -/
structure Response where
  status : Byte
  data : List Byte
  deriving DecidableEq, Repr

/-- Reasons the machine stops. No command raises one: the engine's own exceptions are next states (R145). -/
inductive Fault where
  /-- Raised by a host read of `OUT` at an offset above 199, an address that does not exist (R52, R57).
  Safe: the model stops where the spec has no address. -/
  | outOffset
  /-- Raised by a system step or event for an engine number the system does not hold (R152).
  Safe: there is no such engine. -/
  | noSuchEngine
  deriving DecidableEq, Repr

/-- Reasons the model gives no meaning. -/
inductive Refusal where
  /-- Raised by an arm of `exec` for an instruction without a meaning; no arm raises it. Safe. -/
  | notModelled (mnemonic : String)
  /-- Raised by a host read of `OUT` while `PHASE` is not Finalized: "a read is refused, not answered with
  zeros" (R52, U9). Safe: no value is offered. -/
  | outNotValid
  deriving DecidableEq, Repr

/-- All the state of one engine (10_state.md section 1) and the two channels of its host (log entries 1 and 3).
The counters and the three numbers of the configuration are plain naturals, with R30 as an invariant
(R144; log entry 7). -/
structure State where
  /-- `S[0..24]` (R20). -/
  lanes : Lanes
  /-- `CFG.B`, the output width in bits (R24). -/
  cfgB : Nat
  /-- `CFG.CAPW`, the capacity in lanes (R24). -/
  cfgCapW : Nat
  /-- `CFG.RATEW`, the rate in lanes (R24). -/
  cfgRateW : Nat
  /-- `CFG.RULE`, the padding rule (R25). -/
  cfgRule : PadRule
  /-- `SAVED`, the pending partial lane (R27). -/
  saved : Lane
  /-- `BYTE_INDEX`, how many bytes of `SAVED` are filled (R28). -/
  byteIndex : Nat
  /-- `WORD_INDEX`, the rate lane that receives the next full word (R29). -/
  wordIndex : Nat
  /-- `PHASE` (R31). -/
  phase : Phase
  /-- `FAULT`, the first exception since reset; `none` is the register's value 0 (R32). -/
  fault : Option Exc
  /-- The command channel: bytes sent by the host and not yet consumed, oldest first (R71, R82). -/
  input : List Byte
  /-- The response channel: responses produced and not yet taken, oldest first (R75). -/
  responses : List Response
  deriving DecidableEq, Repr

/-- The machine right after RESET (R37, R170). `CFG` is unspecified there: its zeros and SHA3 are the model's
own (DESIGN CHOICE, log entry 4, unsafe), and so are the two empty channels (log entries 1 and 3). -/
def State.reset : State where
  lanes := zeroLanes
  cfgB := 0
  cfgCapW := 0
  cfgRateW := 0
  cfgRule := .sha3
  saved := 0
  byteIndex := 0
  wordIndex := 0
  phase := .idle
  fault := none
  input := []
  responses := []

end Sys2Proof.Machine
end

