-- ==== Sys2Proof/Machine/Operands.lean ====
section
/-! DEFINITION. The operand forms of the commands: the width operand and what it derives, payload bytes as lane
values, the padding constants, and lanes as output bytes (R6, R7, R11, R12, R51 to R54). -/

namespace Sys2Proof.Machine

/-- The supported output widths: 256, 384 and 512 bits (R6, R141). -/
def legalWidth (b : Nat) : Bool := b == 256 || b == 384 || b == 512

/-- `capacity_words = 2*B/64` (R6). -/
def capacityWords (b : Nat) : Nat := 2 * b / 64

/-- `rate_words = 25 - capacity_words` (R6). -/
def rateWords (b : Nat) : Nat := 25 - capacityWords b

/-- `rate_bytes = 8 * rate_words`, the length of a block (R6). -/
def rateBytes (b : Nat) : Nat := 8 * rateWords b

/-- `digest_bytes = B/8` (R6). -/
def digestBytes (b : Nat) : Nat := b / 8

/-- `zext_64` (R12). -/
def zext64 (v : Byte) : Lane := v.setWidth 64

/-- The little-endian lane value of at most eight bytes, upper bytes zero (R11, R51). -/
def le64 : List Byte → Lane
  | [] => 0
  | v :: vs => zext64 v ||| (le64 vs <<< 8)

/-- `MemRead(p, n)` on a payload, `n` in 1..8 (R12). -/
def memRead (payload : List Byte) (p n : Nat) : Lane := le64 ((payload.drop p).take n)

/-- The suffix byte of a padding rule: 0x06 for SHA3, 0x01 for Keccak (R116). -/
def suffixByte : PadRule → Lane
  | .sha3 => 0x06
  | .keccak => 0x01

/-- The domain-separation suffix value `t` at byte `n` of a lane (R116). -/
def suffixValue (k : PadRule) (n : Nat) : Lane := suffixByte k <<< (8 * n)

/-- The terminator, the top bit of a lane (R9, R116). -/
def terminator : Lane := 0x8000000000000000

/-- `byte(v, k)`: bits `8k+7 : 8k` of a lane (R11). -/
def laneByte (v : Lane) (k : Nat) : Byte := v.extractLsb' (8 * k) 8

/-- `OUT[a]` for `a` in 0..199 (R52). -/
def outByte (A : Lanes) (a : Fin 200) : Byte :=
  laneByte (A[a.val / 8]'(by omega)) (a.val % 8)

/-- `OUT[0..199]` in that order (R52, R75). -/
def outImage (A : Lanes) : List Byte := (List.finRange 200).map (outByte A)

/-- The digest window `OUT[0 .. CFG.B/8 - 1]` of an output image (R53). -/
def digestWindow (b : Nat) (out : List Byte) : List Byte := out.take (digestBytes b)

/-- `A[i]` with `w` XORed into it. The commands reach it with `i < 25` only (R112, R116); outside the array it
changes nothing (log entry 12). -/
def xorLane (A : Lanes) (i : Nat) (w : Lane) : Lanes :=
  if h : i < 25 then A.set i (A[i] ^^^ w) else A

end Sys2Proof.Machine
end

