-- ==== Sys2Proof/Machine/Flags.lean ====
section
/-! DEFINITION. The flag-like state: there are no condition codes (R33); what commands test and set are `PHASE`,
the sticky `FAULT` record with its codes, and the invariants of R30. -/

namespace Sys2Proof.Machine

/-- The codes of the exceptions (R140). -/
def excCode : Exc → Nat
  | .invalidConfiguration => 1
  | .invalidState => 2
  | .invalidCommand => 3
  | .invariantViolation => 4

/-- The status byte of a faulting command's response (R75). -/
def excStatus (e : Exc) : Byte := BitVec.ofNat 8 (excCode e)

/-- The status byte of a command that did not fault (R75). -/
def statusOk : Byte := 0

/-- The value of the 3-bit `FAULT` register (R32). -/
def faultValue : Option Exc → BitVec 3
  | none => 0
  | some e => BitVec.ofNat 3 (excCode e)

/-- The value of the 2-bit `PHASE` register (10_state.md section 1). -/
def phaseValue : Phase → BitVec 2
  | .idle => 0
  | .absorbing => 1
  | .finalized => 2

/-- The sticky rule of `FAULT`: a code is taken only where none is held (R32, R145). -/
def stickyFault (e : Exc) : Option Exc → Option Exc
  | none => some e
  | some first => some first

/-- `if FAULT = 0 then FAULT <- code` (R145). -/
def recordFault (e : Exc) (s : State) : State := { s with fault := stickyFault e s.fault }

/-- The legal triples of `CFG` (R24). -/
def legalConfig (b capW rateW : Nat) : Bool :=
  (b == 256 && capW == 8 && rateW == 17) || (b == 384 && capW == 12 && rateW == 13) ||
    (b == 512 && capW == 16 && rateW == 9)

/-- The invariants of R30 with the configuration of R24: what an instance's state must meet (R144). -/
def invariantsHold (s : State) : Bool :=
  decide (s.byteIndex < 8) && decide (s.wordIndex < s.cfgRateW) &&
    decide (s.saved >>> (8 * s.byteIndex) = 0) && legalConfig s.cfgB s.cfgCapW s.cfgRateW

end Sys2Proof.Machine
end

