-- ==== Sys2Proof/Machine/Ops.lean ====
section
/-! DEFINITION. The named operations over the state: the channels, taking an exception, the partial lane,
FLUSH_LANE, and the parts of ABSORB and FINALIZE (R75, R112, R113, R116, R145). -/

namespace Sys2Proof.Machine

/-- The engine has consumed its input up to `rest` (R71). -/
def setInput (rest : List Byte) (s : State) : State := { s with input := rest }

/-- `respond (status, data)` (R12, R75): responses come in command order. -/
def respond (status : Byte) (data : List Byte) (s : State) : State :=
  { s with responses := s.responses ++ [⟨status, data⟩] }

/-- TAKING AN EXCEPTION, the whole effect of a command that raises one (R145): the sticky record, the response
`(code, empty)`, nothing else. There is no handler and no saved state, so there is no return from one (R149). -/
def takeException (e : Exc) (s : State) : State :=
  respond (excStatus e) [] (recordFault e s)

/-- `PERMUTE()` (R12, R97): the lanes are permuted, nothing else changes. -/
def permuteLanes (s : State) : State := { s with lanes := permute s.lanes }

/-- One byte into the pending partial lane (R113, steps 1, 2 and 4). -/
def bufferByte (s : State) (v : Byte) : State :=
  { s with saved := s.saved ||| (zext64 v <<< (8 * s.byteIndex)), byteIndex := s.byteIndex + 1 }

/-- Bytes into the pending partial lane, in payload order (R113). -/
def bufferBytes (vs : List Byte) (s : State) : State := vs.foldl bufferByte s

/-- "clear the pending buffer" (R113, step 2). -/
def clearSaved (s : State) : State := { s with saved := 0, byteIndex := 0 }

/-- `S[WORD_INDEX] <- S[WORD_INDEX] ^ w; WORD_INDEX <- WORD_INDEX + 1`, the first half of R112. -/
def putWord (w : Lane) (s : State) : State :=
  { s with lanes := xorLane s.lanes s.wordIndex w, wordIndex := s.wordIndex + 1 }

/-- `WORD_INDEX <- 0` (R112). -/
def rewindWord (s : State) : State := { s with wordIndex := 0 }

/-- FLUSH_LANE (R112). -/
def flushLane (w : Lane) (s : State) : State :=
  if (putWord w s).wordIndex = s.cfgRateW then rewindWord (permuteLanes (putWord w s)) else putWord w s

/-- `n` whole 8-byte groups from the front of the payload (R113, step 3). -/
def flushGroups : Nat → List Byte → State → State
  | 0, _, s => s
  | n + 1, payload, s => flushGroups n (payload.drop 8) (flushLane (memRead payload 0 8) s)

/-- Steps 3 and 4 of R113: `while n - p >= 8` runs once for each whole group left, and the 0..7 bytes after
the groups go to the partial lane. -/
def absorbAligned (payload : List Byte) (s : State) : State :=
  bufferBytes (payload.drop (8 * (payload.length / 8))) (flushGroups (payload.length / 8) payload s)

/-- Step 2 of R113: the partial lane is filled to eight bytes, cleared and flushed. -/
def topOff (payload : List Byte) (s : State) : State :=
  flushLane (bufferBytes payload s).saved (clearSaved (bufferBytes payload s))

/-- What ABSORB does to an instance (R113, steps 1 to 4; step 2 only when the partial lane holds a byte, D13). -/
def absorbData (payload : List Byte) (s : State) : State :=
  if 0 < s.byteIndex then
    if payload.length < 8 - s.byteIndex then bufferBytes payload s
    else absorbAligned (payload.drop (8 - s.byteIndex)) (topOff (payload.take (8 - s.byteIndex)) s)
  else absorbAligned payload s

/-- What NEW does after its check (R111): the configuration, and the fresh instance "state zeroed, buffer
empty, lane index 0". -/
def startInstance (b : Nat) (k : PadRule) (s : State) : State :=
  { s with
    cfgB := b
    cfgCapW := capacityWords b
    cfgRateW := 25 - capacityWords b
    cfgRule := k
    lanes := zeroLanes
    saved := 0
    byteIndex := 0
    wordIndex := 0
    phase := .absorbing }

/-- The two XORs of FINALIZE, both always done (R116, R117). -/
def padLanes (s : State) : State :=
  { s with
    lanes :=
      xorLane (xorLane s.lanes s.wordIndex (s.saved ^^^ suffixValue s.cfgRule s.byteIndex))
        (s.cfgRateW - 1) terminator }

/-- `PHASE <- Finalized` (R116). -/
def endInstance (s : State) : State := { s with phase := .finalized }

end Sys2Proof.Machine
end

