-- ==== Sys2Proof/Machine/Sponge.lean ====
section
/-! DEFINITION. The meanings of the three host commands (41_sponge.md), and of what the decoder refuses. Each
command makes its checks before its first write and in the order of R146. -/

namespace Sys2Proof.Machine

/-- NEW b, k (R111): legal in every phase, the width check first (R141); it leaves `FAULT` alone. -/
def execNew (b : Nat) (k : PadRule) (s : State) : Host.Outcome State Fault Refusal :=
  if legalWidth b then .next (respond statusOk [] (startInstance b k s))
  else .next (takeException .invalidConfiguration s)

/-- ABSORB bytes (R113): the phase check first (R142), then the invariants (R144). -/
def execAbsorb (payload : List Byte) (s : State) : Host.Outcome State Fault Refusal :=
  if s.phase = .absorbing then
    if invariantsHold s then .next (respond statusOk [] (absorbData payload s))
    else .next (takeException .invariantViolation s)
  else .next (takeException .invalidState s)

/-- FINALIZE (R116): the phase check first (R142), then the invariants (R144). `SAVED`, `BYTE_INDEX` and
`WORD_INDEX` stay as they are (D12); the response carries the 200 bytes of `OUT`. -/
def execFinalize (s : State) : Host.Outcome State Fault Refusal :=
  if s.phase = .absorbing then
    if invariantsHold s then
      .next (respond statusOk (outImage (permuteLanes (padLanes s)).lanes)
        (endInstance (permuteLanes (padLanes s))))
    else .next (takeException .invariantViolation s)
  else .next (takeException .invalidState s)

end Sys2Proof.Machine
end

