-- ==== Sys2Proof/Machine/Dispatch.lean ====
section
/-! DEFINITION. One arm per host command (spec/opcode_table.json). -/

namespace Sys2Proof.Machine

def exec (i : Instr) (s : State) : Host.Outcome State Fault Refusal :=
  match i with
  | .new b k => Sys2Proof.Machine.execNew b k s
  | .absorb payload => Sys2Proof.Machine.execAbsorb payload s
  | .finalize => Sys2Proof.Machine.execFinalize s

end Sys2Proof.Machine
end

