-- ==== Sys2Proof/WellFormed.lean ====
section
/-! DEFINITION. Which terms of `Instr` a command record can carry: the ranges of the header fields. -/

namespace Sys2Proof

/-- `b` is a 16-bit number (R72) and a payload has at most `MAXLEN` bytes (R8, R73). -/
def wellFormed : Instr → Bool
  | .new b _ => decide (b ≤ 65535)
  | .absorb payload => decide (payload.length ≤ Config.maxLen)
  | .finalize => true

end Sys2Proof
end

