-- ==== Sys2Proof/Decode.lean ====
section
/-! DEFINITION. Decoding of the command channel and the encoder beside it (R71 to R77, R79, R82). Total on any
bytes; an illegal header word is rejected by name. -/

namespace Sys2Proof

/-- Why a header word is illegal: cases (a), (b), (c) of R76. -/
inductive IllegalReason where
  /-- (a) the opcode is 0x00 or one of 0x04..0xFF. -/
  | undefinedOpcode
  /-- (b) a NEW with a set bit in `hdr[23:17]`. -/
  | reservedNew
  /-- (c) a FINALIZE with a set bit in `hdr[23:0]`. -/
  | reservedFinalize
  deriving DecidableEq, Repr

/-- What one header word says. -/
inductive Header where
  | new (b : Nat) (k : PadRule)
  | absorb (len : Nat)
  | finalize
  | illegal (reason : IllegalReason)
  deriving DecidableEq, Repr

/-- What stands at the head of the command channel. -/
inductive Decoded where
  /-- The stream ends inside the record (R82). -/
  | incomplete
  /-- An illegal word, a record of one word (R76), and the bytes after it. -/
  | illegal (reason : IllegalReason) (rest : List Byte)
  /-- A complete record and the bytes after it. -/
  | record (i : Instr) (rest : List Byte)
  deriving DecidableEq, Repr

/-- The header word of four channel bytes, least significant byte first (R82). -/
def headerOfBytes (b0 b1 b2 b3 : Byte) : Word32 := b3 ++ b2 ++ b1 ++ b0

/-- The four channel bytes of a header word, least significant byte first (R82). -/
def headerBytes (hdr : Word32) : List Byte :=
  [hdr.extractLsb' 0 8, hdr.extractLsb' 8 8, hdr.extractLsb' 16 8, hdr.extractLsb' 24 8]

/-- `hdr[16]`: 0 is SHA3, 1 is Keccak (R72, R77). -/
def ruleOfBit (k : Bool) : PadRule := if k then .keccak else .sha3

/-- The code of a padding rule as one bit (R72). -/
def bitOfRule : PadRule → BitVec 1
  | .sha3 => 0#1
  | .keccak => 1#1

/-- Decoding is total on 32-bit words (R71 to R74, R76, R77). -/
def decodeHeader (hdr : Word32) : Header :=
  if hdr.extractLsb' 24 8 = 0x01#8 then
    if hdr.extractLsb' 17 7 = 0#7 then
      .new (hdr.extractLsb' 0 16).toNat (ruleOfBit (hdr.getLsbD 16))
    else .illegal .reservedNew
  else if hdr.extractLsb' 24 8 = 0x02#8 then .absorb (hdr.extractLsb' 0 24).toNat
  else if hdr.extractLsb' 24 8 = 0x03#8 then
    if hdr.extractLsb' 0 24 = 0#24 then .finalize else .illegal .reservedFinalize
  else .illegal .undefinedOpcode

/-- The record length in bytes, told by the header word alone (R71, R79). -/
def recordLength (hdr : Word32) : Nat :=
  match decodeHeader hdr with
  | .absorb len => 4 + len
  | _ => 4

/-- A header with its operands and the bytes that follow it (R71 to R74, R76, R82). -/
def decodeBody (hdr : Word32) (rest : List Byte) : Decoded :=
  match decodeHeader hdr with
  | .new b k => .record (.new b k) rest
  | .absorb len =>
    if len ≤ rest.length then .record (.absorb (rest.take len)) (rest.drop len) else .incomplete
  | .finalize => .record .finalize rest
  | .illegal reason => .illegal reason rest

/-- The record at the head of the command channel (R71, R82). -/
def decode : List Byte → Decoded
  | b0 :: b1 :: b2 :: b3 :: rest => decodeBody (headerOfBytes b0 b1 b2 b3) rest
  | _ => .incomplete

/-- The header word of a command (R72, R73, R74). -/
def encodeHeader : Instr → Word32
  | .new b k => 0x01#8 ++ 0#7 ++ bitOfRule k ++ BitVec.ofNat 16 b
  | .absorb payload => 0x02#8 ++ BitVec.ofNat 24 payload.length
  | .finalize => 0x03#8 ++ 0#24

/-- The payload of a command's record; only ABSORB has one (R71). -/
def payloadOf : Instr → List Byte
  | .absorb payload => payload
  | _ => []

/-- The whole record of a command as channel bytes (R71, R82). -/
def encode (i : Instr) : List Byte := headerBytes (encodeHeader i) ++ payloadOf i

/-- `n` bytes of the number `w`, the least significant first. -/
def numberBytes : Nat → Nat → List Byte
  | 0, _ => []
  | n + 1, w => BitVec.ofNat 8 w :: numberBytes n (w / 256)

/-- The channel bytes of the record whose first `nbits` bits are the number `w`, with every byte of it above
those bits zero (the host's numbering of spec/opcode_table.json). -/
def tableBytes (nbits w : Nat) : List Byte :=
  let given := numberBytes (nbits / 8) w
  let len := recordLength (BitVec.ofNat 32 (w % 2 ^ nbits))
  (given ++ List.replicate (len - nbits / 8) 0#8).take len

/-- The command the decoder reads from the record of `tableBytes`, none where it refuses. -/
def decodeTableWord (nbits w : Nat) : Option Instr :=
  match decode (tableBytes nbits w) with
  | .record i _ => some i
  | .illegal _ _ => none
  | .incomplete => none

end Sys2Proof
end

