-- ==== Sys2Proof/Machine/Fetch.lean ====
section
/-! DEFINITION. How the engine takes the next record from its command channel, and what it does where there is no
command to run (R71, R76, R82, R143). -/

namespace Sys2Proof.Machine

/-- The record at the head of the command channel (R71). -/
def fetch (s : State) : Decoded := decode s.input

/-- No complete record: "the engine takes no step for it and produces no response" (R82); between commands it
"holds its state indefinitely" (R153). The step answers the same state (log entry 2). -/
def awaitRecord (s : State) : State := s

/-- An illegal word raises InvalidCommand, before and instead of any other check (R76, R143, R146). -/
def rejectWord (_reason : IllegalReason) (s : State) : State := takeException .invalidCommand s

/-- The record of `tableBytes` at the head of the command channel, before what stands there already. -/
def placeRecord (s : State) (nbits w : Nat) : State := setInput (tableBytes nbits w ++ s.input) s

end Sys2Proof.Machine
end

