-- ==== Sys2Proof/Machine/Step.lean ====
section
/-! DEFINITION. One step of the engine: one whole command record (R13, R14). -/

namespace Sys2Proof.Machine

/-- One step: the next record is consumed from the command channel, the payload of a faulting ABSORB included
(R142), and executed completely. -/
def step (s : State) : Host.Outcome State Fault Refusal :=
  match fetch s with
  | .incomplete => .next (awaitRecord s)
  | .illegal reason rest => .next (rejectWord reason (setInput rest s))
  | .record i rest => exec i (setInput rest s)

/-- The host has sent the given record as the next one (log entry 6). -/
def State.withFetchWord (s : State) (nbits w : Nat) : State := placeRecord s nbits w

end Sys2Proof.Machine
end

