-- ==== Sys2Proof/Machine/Hash.lean ====
section
/-! DEFINITION. The pseudo-command HASH: its expansion and its run on one engine (R80, R118). -/

namespace Sys2Proof.Machine

/-- The payloads HASH sends: `n` pieces of `m` bytes and the rest (R80). -/
def hashPieces (m : Nat) : Nat → List Byte → List (List Byte)
  | 0, bytes => [bytes]
  | n + 1, bytes => bytes.take m :: hashPieces m n (bytes.drop m)

/-- One payload, empty or not, for at most `MAXLEN` bytes; for a longer message pieces of `MAXLEN` bytes and a
last shorter one (R80; log entry 10). -/
def hashPayloads (bytes : List Byte) : List (List Byte) :=
  if bytes.length ≤ Config.maxLen then [bytes]
  else hashPieces Config.maxLen (bytes.length / Config.maxLen) bytes

/-- The expansion of `HASH bytes, b, k` (R80). -/
def hashCommands (bytes : List Byte) (b : Nat) (k : PadRule) : List Instr :=
  .new b k :: ((hashPayloads bytes).map .absorb ++ [.finalize])

/-- The status of the last response. -/
def lastStatus (s : State) : Byte :=
  match s.responses.getLast? with
  | some r => r.status
  | none => statusOk

/-- The data of the last response. -/
def lastData (s : State) : List Byte :=
  match s.responses.getLast? with
  | some r => r.data
  | none => []

/-- Commands one after another; the expansion stops at the first that faults (R58, R80). -/
def runCommands : List Instr → State → Host.Outcome State Fault Refusal
  | [], s => .next s
  | i :: rest, s =>
    match exec i s with
    | .next t => if lastStatus t = statusOk then runCommands rest t else .next t
    | .fault r => .fault r
    | .refused r => .refused r

/-- Commands one after another, faulting or not: the left-to-right composition of R58. -/
def execAll : List Instr → State → Host.Outcome State Fault Refusal
  | [], s => .next s
  | i :: rest, s =>
    match exec i s with
    | .next t => execAll rest t
    | .fault r => .fault r
    | .refused r => .refused r

/-- The result of HASH: the digest, or the status of the command that faulted (R80). -/
inductive HashResult where
  | digest (bytes : List Byte)
  | error (status : Byte)
  deriving DecidableEq, Repr

/-- "The result of HASH is the digest window of the FINALIZE response" (R80). -/
def hashResult (s : State) : HashResult :=
  if lastStatus s = statusOk then .digest (digestWindow s.cfgB (lastData s)) else .error (lastStatus s)

/-- HASH on one engine: the state it leaves and its result (R118). -/
def runHash (bytes : List Byte) (b : Nat) (k : PadRule) (s : State) :
    Host.Outcome (State × HashResult) Fault Refusal :=
  match runCommands (hashCommands bytes b k) s with
  | .next t => .next (t, hashResult t)
  | .fault r => .fault r
  | .refused r => .refused r

end Sys2Proof.Machine
end

