-- ==== Sys2Proof/Machine/Assembler.lean ====
section
/-! DEFINITION. The assembler text of R81, with the three NEW sugars and HASH (R80): one command a line, `;` starts a
comment. Text is a list of characters. Lexical details the spec does not give are log entry 11. -/

namespace Sys2Proof.Machine

/-- A token of one line. -/
inductive AsmToken where
  | word (chars : List Char)
  | text (chars : List Char)
  | comma
  | star
  deriving DecidableEq, Repr

/-- The double quote. -/
def quoteChar : Char := Char.ofNat 34

/-- A word that has been read so far, if any, in front of the tokens read (both reversed). -/
def closeWord (word : List Char) (tokens : List AsmToken) : List AsmToken :=
  match word with
  | [] => tokens
  | c :: cs => .word (c :: cs).reverse :: tokens

/-- The tokens of a line; `quoted` holds a literal being read and `word` a word being read, both reversed.
A `;` outside a literal ends the line, a literal left open is an error (R81). -/
def lexLine : List Char → Option (List Char) → List Char → List AsmToken → Option (List AsmToken)
  | [], some _, _, _ => none
  | [], none, word, tokens => some (closeWord word tokens).reverse
  | c :: cs, some q, word, tokens =>
    if c = quoteChar then lexLine cs none word (.text q.reverse :: tokens)
    else lexLine cs (some (c :: q)) word tokens
  | c :: cs, none, word, tokens =>
    if c = ';' then some (closeWord word tokens).reverse
    else if c = quoteChar then lexLine cs (some []) [] (closeWord word tokens)
    else if c = ',' then lexLine cs none [] (.comma :: closeWord word tokens)
    else if c = '*' then lexLine cs none [] (.star :: closeWord word tokens)
    else if c = ' ' ∨ c = Char.ofNat 9 ∨ c = Char.ofNat 13 then lexLine cs none [] (closeWord word tokens)
    else lexLine cs none (c :: word) tokens

/-- The value of a digit in a base of at most 16. -/
def digitValue (base : Nat) (c : Char) : Option Nat :=
  let n := c.toNat
  let v := if 48 ≤ n ∧ n ≤ 57 then n - 48
    else if 97 ≤ n ∧ n ≤ 102 then n - 87
    else if 65 ≤ n ∧ n ≤ 70 then n - 55
    else 16
  if v < base then some v else none

/-- The digits of a decimal number read on from `acc`. -/
def decimalFrom : Nat → List Char → Option Nat
  | acc, [] => some acc
  | acc, c :: cs => (digitValue 10 c).bind fun d => decimalFrom (10 * acc + d) cs

/-- A decimal number (R81). -/
def decimal (cs : List Char) : Option Nat := if cs = [] then none else decimalFrom 0 cs

/-- `x"hex digits"`: two digits per byte, first byte first (R81). -/
def hexBytes : List Char → Option (List Byte)
  | [] => some []
  | [_] => none
  | c :: d :: cs =>
    (digitValue 16 c).bind fun hi => (digitValue 16 d).bind fun lo =>
      (hexBytes cs).map fun vs => BitVec.ofNat 8 (16 * hi + lo) :: vs

/-- `"text"`: ASCII, one byte per character, no terminator (R81). -/
def asciiBytes : List Char → Option (List Byte)
  | [] => some []
  | c :: cs => if c.toNat < 128 then (asciiBytes cs).map fun vs => BitVec.ofNat 8 c.toNat :: vs else none

/-- The three forms of `<bytes>` (R81). -/
def bytesLiteral : List AsmToken → Option (List Byte)
  | [.text t] => asciiBytes t
  | [.word x, .text h] => if x = ['x'] then hexBytes h else none
  | [.word n, .star, .word x, .text h] =>
    if x = ['x'] then
      (decimal n).bind fun count =>
        match hexBytes h with
        | some [v] => some (List.replicate count v)
        | _ => none
    else none
  | _ => none

/-- `<rule>` is SHA3 or KECCAK (R81). -/
def ruleName (cs : List Char) : Option PadRule :=
  if cs = ['S', 'H', 'A', '3'] then some .sha3
  else if cs = ['K', 'E', 'C', 'C', 'A', 'K'] then some .keccak
  else none

/-- `<bits>` is a decimal number 0..65535 (R81). -/
def bitsNumber (cs : List Char) : Option Nat :=
  (decimal cs).bind fun b => if b ≤ 65535 then some b else none

/-- The operands of NEW: `<bits>, <rule>`. -/
def newOperands : List AsmToken → Option (Nat × PadRule)
  | [.word b, .comma, .word k] => (bitsNumber b).bind fun b => (ruleName k).map fun k => (b, k)
  | _ => none

/-- The operand of a NEW sugar: `<rule>`. -/
def sugarOperand : List AsmToken → Option PadRule
  | [.word k] => ruleName k
  | _ => none

/-- `NEW256 <rule>`, `NEW384 <rule>` and `NEW512 <rule>` are NEW with the width filled in (R81). -/
def newSugar (b : Nat) (tokens : List AsmToken) : Option (List Instr) :=
  (sugarOperand tokens).map fun k => [.new b k]

/-- The operands of HASH: `<bytes>, <bits>, <rule>` (R80). -/
def hashOperands (tokens : List AsmToken) : Option (List Byte × Nat × PadRule) :=
  match tokens.dropWhile (fun t => decide (t ≠ AsmToken.comma)) with
  | .comma :: rest =>
    (bytesLiteral (tokens.takeWhile fun t => decide (t ≠ AsmToken.comma))).bind fun bytes =>
      (newOperands rest).map fun bk => (bytes, bk)
  | _ => none

/-- The payload of an ABSORB line: at most `MAXLEN` bytes (R81). -/
def absorbOperand (tokens : List AsmToken) : Option (List Byte) :=
  (bytesLiteral tokens).bind fun bytes => if bytes.length ≤ Config.maxLen then some bytes else none

/-- The commands of one line of tokens: one, or the expansion of HASH, or none for an empty line. -/
def lineCommands : List AsmToken → Option (List Instr)
  | [] => some []
  | .word w :: operands =>
    if w = ['N', 'E', 'W'] then (newOperands operands).map fun bk => [.new bk.1 bk.2]
    else if w = ['N', 'E', 'W', '2', '5', '6'] then newSugar 256 operands
    else if w = ['N', 'E', 'W', '3', '8', '4'] then newSugar 384 operands
    else if w = ['N', 'E', 'W', '5', '1', '2'] then newSugar 512 operands
    else if w = ['A', 'B', 'S', 'O', 'R', 'B'] then (absorbOperand operands).map fun p => [.absorb p]
    else if w = ['F', 'I', 'N', 'A', 'L', 'I', 'Z', 'E'] then if operands = [] then some [.finalize] else none
    else if w = ['H', 'A', 'S', 'H'] then
      (hashOperands operands).map fun h => hashCommands h.1 h.2.1 h.2.2
    else none
  | _ => none

/-- The lines of a text; `line` holds the one being read, reversed. -/
def splitLines : List Char → List Char → List (List Char)
  | [], line => [line.reverse]
  | c :: cs, line => if c = Char.ofNat 10 then line.reverse :: splitLines cs [] else splitLines cs (c :: line)

/-- The commands of one line of text. -/
def assembleLine (line : List Char) : Option (List Instr) := (lexLine line none [] []).bind lineCommands

/-- The commands of some lines; none if one of them is no line of R81. -/
def assembleLines : List (List Char) → Option (List Instr)
  | [] => some []
  | line :: rest => (assembleLine line).bind fun is => (assembleLines rest).map fun js => is ++ js

/-- The commands of an assembler text. -/
def assemble (source : List Char) : Option (List Instr) := assembleLines (splitLines source [])

/-- The channel bytes of some commands, "with nothing between them" (R71). -/
def assembledBytes (commands : List Instr) : List Byte := commands.flatMap encode

end Sys2Proof.Machine
end

