-- ==== Sys2Proof/Machine/HostPort.lean ====
section
/-! DEFINITION. What the host can do to one engine: send records, take responses, read `OUT` and `FAULT`, assert
RESET (R52, R56, R57, R71, R75, R170, R172, R177); and runs made of those events and the engine's steps. -/

namespace Sys2Proof.Machine

/-- The host sends bytes of command records; they queue in the order sent (R71, R177). -/
def sendBytes (bytes : List Byte) (s : State) : State := { s with input := s.input ++ bytes }

/-- The host takes the oldest response, if there is one (R75). -/
def takeResponse (s : State) : Option Response × State :=
  match s.responses with
  | [] => (none, s)
  | r :: rs => (some r, { s with responses := rs })

/-- The host reads `OUT[a]`: answered only while `PHASE` is Finalized, and only for `a` in 0..199 (R52, R57);
no side effect (R56; log entry 9). -/
def readOut (a : Nat) (s : State) : Host.Outcome Byte Fault Refusal :=
  if s.phase = .finalized then
    if h : a < 200 then .next (outByte s.lanes ⟨a, h⟩) else .fault .outOffset
  else .refused .outNotValid

/-- The host reads the `FAULT` register (10_state.md section 1, R32). -/
def readFault (s : State) : BitVec 3 := faultValue s.fault

/-- RESET, an event outside the command stream (R170). It sets every field of R37; bytes and responses that are
in the channels stay there (log entry 5). -/
def resetEvent (s : State) : State := { State.reset with input := s.input, responses := s.responses }

/-- What can happen next at one engine. Every host event lands between two commands (R13, R170). -/
inductive Event where
  | engineStep
  | send (bytes : List Byte)
  | take
  | readOutAt (a : Nat)
  | readFaultRegister
  | assertReset
  deriving DecidableEq, Repr

/-- The state after a step of the engine; where a step stops there would be no change (no step does). -/
def afterStep (s : State) : State :=
  match step s with
  | .next t => t
  | .fault _ => s
  | .refused _ => s

/-- The state after an event; the two reads change nothing (R56). -/
def onEvent : Event → State → State
  | .engineStep, s => afterStep s
  | .send bytes, s => sendBytes bytes s
  | .take, s => (takeResponse s).2
  | .readOutAt _, s => s
  | .readFaultRegister, s => s
  | .assertReset, s => resetEvent s

/-- The state after events in the given order (R58). -/
def runEvents (events : List Event) (s : State) : State :=
  events.foldl (fun t e => onEvent e t) s

end Sys2Proof.Machine
end

