-- ==== Sys2Proof/Machine/Engines.lean ====
section
/-! DEFINITION. A system of any number of engines: the product of their states, each with its own host events
(R8, R61, R152). -/

namespace Sys2Proof.Machine

/-- The states of the engines of a system, engine number `i` at place `i` (R152). -/
structure EngineSystem where
  engines : List State
  deriving DecidableEq, Repr

/-- `n` engines right after reset; the default is `N_ENGINES` (R8). -/
def systemReset (n : Nat := Config.nEngines) : EngineSystem := ⟨List.replicate n State.reset⟩

/-- An event at engine `i` changes only that engine (R61). -/
def systemEvent (i : Nat) (e : Event) (y : EngineSystem) : Host.Outcome EngineSystem Fault Refusal :=
  match y.engines[i]? with
  | some s => .next ⟨y.engines.set i (onEvent e s)⟩
  | none => .fault .noSuchEngine

/-- Events at the engines of a system in one order, an interleaving of their streams (R61). -/
def systemRun : List (Nat × Event) → EngineSystem → Host.Outcome EngineSystem Fault Refusal
  | [], y => .next y
  | (i, e) :: rest, y =>
    match systemEvent i e y with
    | .next z => systemRun rest z
    | .fault r => .fault r
    | .refused r => .refused r

/-- The stream of engine `i` in an interleaving (R61). -/
def streamOf (i : Nat) (schedule : List (Nat × Event)) : List Event :=
  (schedule.filter fun p => p.1 == i).map fun p => p.2

end Sys2Proof.Machine
end

