-- ==== Sys2Proof/Machine/Reference.lean ====
section
/-! DEFINITION. The spec's second forms, against which the commands are stated: the unfused Rho/Pi table (R93), the
byte-at-a-time absorb (R114), blocks and padding (R115, R124), and runs with a count of permutations (R123). No command
uses them. Also R76 read on the word's number, beside the decoder's bit fields. -/

namespace Sys2Proof.Machine

/-- The illegal header words by cases (a), (b), (c) of R76, read on the word as a number. -/
def illegalWord (hdr : Word32) : Bool :=
  hdr.toNat / 2 ^ 24 == 0 || decide (4 ≤ hdr.toNat / 2 ^ 24) ||
    (hdr.toNat / 2 ^ 24 == 1 && hdr.toNat / 2 ^ 17 % 128 != 0) ||
    (hdr.toNat / 2 ^ 24 == 3 && hdr.toNat % 2 ^ 24 != 0)

/-- `DST[1..24]`, where a lane goes (R93). -/
def laneTarget : Vector (Fin 25) 24 :=
  #v[10, 20, 5, 15, 16, 1, 11, 21, 6, 7, 17, 2, 12, 22, 23, 8, 18, 3, 13, 14, 24, 9, 19, 4]

/-- `ROT[1..24]`, by how much it is rotated (R93). -/
def laneRotation : Vector Nat 24 :=
  #v[1, 62, 28, 27, 36, 44, 6, 55, 20, 3, 10, 43, 25, 39, 41, 45, 15, 21, 8, 18, 2, 61, 56, 14]

/-- ABSORB_BYTE (R114). -/
def absorbByte (s : State) (v : Byte) : State :=
  if (bufferByte s v).byteIndex = 8 then flushLane (bufferByte s v).saved (clearSaved (bufferByte s v))
  else bufferByte s v

/-- ABSORB_BYTE for each byte in order (R114). -/
def absorbBytes (bytes : List Byte) (s : State) : State := bytes.foldl absorbByte s

/-- `XorBlock(A, X)` (R115): `le64` of bytes `8i..8i+7` of `X` XORed into lane `i` wherever all eight lie in `X`. -/
def xorBlock (A : Lanes) (X : List Byte) : Lanes :=
  Vector.ofFn fun i : Fin 25 => if 8 * i.val + 8 ≤ X.length then A[i] ^^^ memRead X (8 * i.val) 8 else A[i]

/-- `A_n` of R115 and R124: `n` blocks of `R` bytes of `M` absorbed from the zero state. -/
def blockState (R : Nat) (M : List Byte) : Nat → Lanes
  | 0 => zeroLanes
  | n + 1 => permute (xorBlock (blockState R M n) ((M.drop (n * R)).take R))

/-- The lanes after `M` in the closed form of R115: the whole blocks, then the rest without its last
`L mod 8` bytes. -/
def lanesAfter (R : Nat) (M : List Byte) : Lanes :=
  xorBlock (blockState R M (M.length / R))
    ((M.drop (M.length / R * R)).take (M.length % R / 8 * 8))

/-- The pending partial lane after `M` in the closed form of R115. -/
def savedAfter (M : List Byte) : Lane := le64 (M.drop (M.length / 8 * 8))

/-- The first padding byte `d` (R124). -/
def padByte : PadRule → Byte
  | .sha3 => 0x06
  | .keccak => 0x01

/-- `pad` of R124 for `q` bytes. -/
def padding (k : PadRule) (q : Nat) : List Byte :=
  if q = 1 then [padByte k ||| 0x80] else padByte k :: (List.replicate (q - 2) 0 ++ [0x80])

/-- `P = M ++ pad` (R124). -/
def paddedMessage (R : Nat) (k : PadRule) (M : List Byte) : List Byte :=
  M ++ padding k (R - M.length % R)

/-- `A_f` of R124, the state FINALIZE leaves. -/
def finalLanes (b : Nat) (k : PadRule) (M : List Byte) : Lanes :=
  blockState (rateBytes b) (paddedMessage (rateBytes b) k M) (M.length / rateBytes b + 1)

/-- `Digest(M, B, rule)` (R124). -/
def messageDigest (M : List Byte) (b : Nat) (k : PadRule) : List Byte :=
  digestWindow b (outImage (finalLanes b k M))

/-! ### Counted runs (R113, R123): the commands on a state with a counter of PERMUTE invocations beside it. The counter
moves in `permuteCounted` alone, the counted form of `permuteLanes`. -/

/-- `PERMUTE()`, counted: the one operation that moves the counter. -/
def permuteCounted (c : State × Nat) : State × Nat := (permuteLanes c.1, c.2 + 1)

/-- FLUSH_LANE on a counted state (R112): its wrapping branch runs the counted PERMUTE. -/
def flushLaneCounted (w : Lane) (c : State × Nat) : State × Nat :=
  if (putWord w c.1).wordIndex = c.1.cfgRateW then
    (rewindWord (permuteCounted (putWord w c.1, c.2)).1, (permuteCounted (putWord w c.1, c.2)).2)
  else (putWord w c.1, c.2)

/-- Step 3 of R113 on a counted state. -/
def flushGroupsCounted : Nat → List Byte → State × Nat → State × Nat
  | 0, _, c => c
  | n + 1, payload, c => flushGroupsCounted n (payload.drop 8) (flushLaneCounted (memRead payload 0 8) c)

/-- Bytes into the partial lane of a counted state; nothing is counted. -/
def bufferCounted (vs : List Byte) (c : State × Nat) : State × Nat := (bufferBytes vs c.1, c.2)

/-- Steps 3 and 4 of R113 on a counted state. -/
def alignedCounted (payload : List Byte) (c : State × Nat) : State × Nat :=
  bufferCounted (payload.drop (8 * (payload.length / 8)))
    (flushGroupsCounted (payload.length / 8) payload c)

/-- Step 2 of R113 on a counted state. -/
def topOffCounted (payload : List Byte) (c : State × Nat) : State × Nat :=
  flushLaneCounted (bufferBytes payload c.1).saved (clearSaved (bufferBytes payload c.1), c.2)

/-- Steps 1 to 4 of R113 on a counted state. -/
def dataCounted (payload : List Byte) (c : State × Nat) : State × Nat :=
  if 0 < c.1.byteIndex then
    if payload.length < 8 - c.1.byteIndex then bufferCounted payload c
    else
      alignedCounted (payload.drop (8 - c.1.byteIndex))
        (topOffCounted (payload.take (8 - c.1.byteIndex)) c)
  else alignedCounted payload c

/-- ABSORB in an instance, its response included, on a counted state. -/
def absorbCounted (payload : List Byte) (c : State × Nat) : State × Nat :=
  (respond statusOk [] (dataCounted payload c).1, (dataCounted payload c).2)

/-- NEW of a legal width, its response included, on a counted state: it runs no PERMUTE (R111). -/
def newCounted (b : Nat) (k : PadRule) (c : State × Nat) : State × Nat :=
  (respond statusOk [] (startInstance b k c.1), c.2)

/-- Several ABSORBs in an instance on a counted state. -/
def absorbsCounted (chunks : List (List Byte)) (c : State × Nat) : State × Nat :=
  chunks.foldl (fun d chunk => absorbCounted chunk d) c

/-- FINALIZE in an instance, its response included, on a counted state (R116). -/
def finalizeCounted (c : State × Nat) : State × Nat :=
  (respond statusOk (outImage (permuteCounted (padLanes c.1, c.2)).1.lanes)
      (endInstance (permuteCounted (padLanes c.1, c.2)).1),
    (permuteCounted (padLanes c.1, c.2)).2)

end Sys2Proof.Machine
end

