-- ==== Sys2Proof/Safety.lean ====
section
/-! DEFINITION. What counts as a safe state and a safe run: the invariants of R30 wherever an instance exists, and
no exception recorded (R32). -/

namespace Sys2Proof.Machine

/-- R30: the invariants hold in every state with `PHASE` Absorbing or Finalized. -/
abbrev State.Inv (s : State) : Prop := s.phase = .idle ∨ invariantsHold s = true

/-- "no fault recorded" (R32). -/
abbrev State.Clean (s : State) : Prop := s.fault = none

/-- The states of the runs from reset, with any host events between the steps (R58, R170). -/
def State.Reachable (s : State) : Prop := ∃ events : List Event, runEvents events State.reset = s

end Sys2Proof.Machine
end

