-- ==== Sys2Proof/Certificates/Slice0/Obligations.lean ====
section
/-! DEFINITION. The statements for the provers. Each docstring names the rule of spec/ it formalises, or says what it
derives and from where. -/

open Sys2Proof Sys2Proof.Machine

/-! ## Encoding -/

/-- The record of a well-formed command, whatever follows it, decodes to that command and leaves what follows
(30_encoding.md R71 to R74, R77, R82). -/
def Obligations.DecodeOfEncodeIsIdentity : Prop :=
  ∀ (i : Instr) (rest : List Byte), wellFormed i = true → decode (encode i ++ rest) = .record i rest

/-- A record the decoder accepts is the encoding of the command it reads, and that command is well-formed: a
command has one record. -/
def Obligations.RecordBytesAreTheEncoding : Prop :=
  ∀ (bytes : List Byte) (i : Instr) (rest : List Byte), decode bytes = .record i rest →
    wellFormed i = true ∧ bytes = encode i ++ rest

/-- R72: which words are NEW with which operands, which six are legal, and what the others and the words with a
reserved bit set do. -/
def Obligations.NewWordFields : Prop :=
  ∀ hdr : Word32,
    let six : List Word32 := [0x01000100, 0x01000180, 0x01000200, 0x01010100, 0x01010180, 0x01010200]
    (∀ b k, decodeHeader hdr = .new b k ↔
      hdr.toNat / 2 ^ 17 = 128 ∧ b = hdr.toNat % 65536 ∧
        k = if hdr.toNat / 65536 % 2 = 1 then PadRule.keccak else PadRule.sha3) ∧
    (hdr.toNat / 2 ^ 24 = 1 → hdr.toNat / 2 ^ 17 ≠ 128 → decodeHeader hdr = .illegal .reservedNew) ∧
    ((∃ b k, decodeHeader hdr = .new b k ∧ (b = 256 ∨ b = 384 ∨ b = 512)) ↔ hdr ∈ six) ∧
    (∀ b k s, decodeHeader hdr = .new b k → hdr ∉ six →
      exec (.new b k) s = .next (takeException .invalidConfiguration s))

/-- R73 and R74: which words are ABSORB and FINALIZE, and that an ABSORB record carries exactly `len` payload
bytes, in order. -/
def Obligations.AbsorbAndFinalizeWordFields : Prop :=
  ∀ hdr : Word32,
    (∀ len, decodeHeader hdr = .absorb len ↔ hdr.toNat / 2 ^ 24 = 2 ∧ len = hdr.toNat % 2 ^ 24) ∧
    (∀ len payload rest, decodeHeader hdr = .absorb len → payload.length = len →
      decode (headerBytes hdr ++ (payload ++ rest)) = .record (.absorb payload) rest) ∧
    (decodeHeader hdr = .finalize ↔ hdr.toNat = 0x03000000) ∧
    (∀ rest, decodeHeader hdr = .finalize → decode (headerBytes hdr ++ rest) = .record .finalize rest) ∧
    (hdr.toNat / 2 ^ 24 = 3 → hdr.toNat ≠ 0x03000000 → decodeHeader hdr = .illegal .reservedFinalize)

/-- R76 and R143: the illegal words are exactly those of cases (a) to (c), zero among them; one is a record of one
word, and the step on it takes InvalidCommand and changes nothing but `FAULT`, whatever the state. -/
def Obligations.IllegalWordsRaiseInvalidCommand : Prop :=
  illegalWord 0 = true ∧
  ∀ (hdr : Word32) (rest : List Byte),
    ((∃ reason, decode (headerBytes hdr ++ rest) = .illegal reason rest) ↔ illegalWord hdr = true) ∧
    (∀ reason after, decode (headerBytes hdr ++ rest) = .illegal reason after → after = rest) ∧
    ∀ s : State, s.input = headerBytes hdr ++ rest → illegalWord hdr = true →
      step s = .next { s with
        input := rest
        fault := stickyFault .invalidCommand s.fault
        responses := s.responses ++ [⟨3, []⟩] }

/-- A stream that ends inside a record (R82): fewer than four bytes, or an ABSORB whose payload is not all there.
That the step then answers the same state is the model's choice (log entry 2). -/
def Obligations.IncompleteRecordTakesNoStep : Prop :=
  (∀ bytes : List Byte, decode bytes = .incomplete ↔
    bytes.length < 4 ∨ ∃ b0 b1 b2 rest, bytes = b0 :: b1 :: b2 :: 0x02#8 :: rest ∧
      rest.length < b0.toNat + 256 * b1.toNat + 65536 * b2.toNat) ∧
  ∀ s : State, decode s.input = .incomplete → step s = .next s

/-- The thirteen words of 95_test_vectors.md V12 and the three byte streams beside them decode as listed there. -/
def Obligations.ListedHeaderWordsDecode : Prop :=
  decodeHeader 0x01000100 = .new 256 .sha3 ∧
  decodeHeader 0x01010180 = .new 384 .keccak ∧
  decodeHeader 0x0100FFFF = .new 65535 .sha3 ∧
  decodeHeader 0x01020100 = .illegal .reservedNew ∧
  decodeHeader 0x01800100 = .illegal .reservedNew ∧
  decodeHeader 0x02000000 = .absorb 0 ∧
  decodeHeader 0x02000003 = .absorb 3 ∧
  decodeHeader 0x02FFFFFF = .absorb 16777215 ∧
  decodeHeader 0x03000000 = .finalize ∧
  decodeHeader 0x03000001 = .illegal .reservedFinalize ∧
  decodeHeader 0x00000000 = .illegal .undefinedOpcode ∧
  decodeHeader 0x04000000 = .illegal .undefinedOpcode ∧
  decodeHeader 0xFFFFFFFF = .illegal .undefinedOpcode ∧
  decode [0x00, 0x01, 0x00, 0x01] = .record (.new 256 .sha3) [] ∧
  decode [0x03, 0x00, 0x00, 0x02, 0x61, 0x62, 0x63] = .record (.absorb [0x61, 0x62, 0x63]) [] ∧
  decode [0x00, 0x00, 0x00, 0x03] = .record .finalize []

/-! ## The step -/

/-- One step is one whole command (R13): when the bytes at the head of the channel decode to a command, the step is
`exec` of it at the state whose channel has moved past the record, and the command is well-formed. -/
def Obligations.StepRunsTheDecodedCommand : Prop :=
  ∀ (s : State) (i : Instr) (rest : List Byte), decode s.input = .record i rest →
    step s = exec i (setInput rest s) ∧ wellFormed i = true

/-- Commands take effect in the order issued (R58): as many steps as there are records in the channel run exactly
those commands one after another, and leave what follows the records. -/
def Obligations.CommandStreamRunsInOrder : Prop :=
  ∀ (commands : List Instr) (s : State) (rest : List Byte),
    (∀ i ∈ commands, wellFormed i = true) → s.input = commands.flatMap encode ++ rest →
    Host.Core.run Sys2Proof.core commands.length s = execAll commands (setInput rest s)

/-- R75: every complete record, legal or not, produces exactly one response after the earlier ones; its status is 0 or
one of the four codes; its data is the 200 bytes of `OUT` for a FINALIZE with status 0, whose first `CFG.B/8` are
the digest, and empty otherwise. In particular a step always answers a next state (R14). -/
def Obligations.EveryRecordGetsOneResponse : Prop :=
  ∀ s : State, decode s.input ≠ .incomplete →
    ∃ t r, step s = .next t ∧ t.responses = s.responses ++ [r] ∧ r.status.toNat ≤ 4 ∧
      (r.status = 0 → (∃ rest, decode s.input = .record .finalize rest) →
        r.data = (List.finRange 200).map (outByte t.lanes) ∧ t.phase = .finalized) ∧
      (r.status ≠ 0 ∨ (¬ ∃ rest, decode s.input = .record .finalize rest) → r.data = [])

/-! ## NEW -/

/-- R111: NEW with a legal width, from every state, answers the fresh instance and leaves `FAULT` alone; with any
other width it takes InvalidConfiguration. -/
def Obligations.NewStartsAFreshInstance : Prop :=
  ∀ (s : State) (b : Nat) (k : PadRule),
    (b = 256 ∨ b = 384 ∨ b = 512 →
      exec (.new b k) s = .next {
        lanes := Vector.replicate 25 0
        cfgB := b
        cfgCapW := 2 * b / 64
        cfgRateW := 25 - 2 * b / 64
        cfgRule := k
        saved := 0
        byteIndex := 0
        wordIndex := 0
        phase := .absorbing
        fault := s.fault
        input := s.input
        responses := s.responses ++ [⟨0, []⟩] }) ∧
    (b ≠ 256 → b ≠ 384 → b ≠ 512 →
      exec (.new b k) s = .next { s with
        fault := stickyFault .invalidConfiguration s.fault
        responses := s.responses ++ [⟨1, []⟩] })

/-- The table of the three configurations, in lanes and bytes (R6); its two byte columns and the comparison of digest and
rate are inferences that R6 marks as its own. -/
def Obligations.ConfigurationTable : Prop :=
  (capacityWords 256 = 8 ∧ rateWords 256 = 17 ∧ rateBytes 256 = 136 ∧ digestBytes 256 = 32) ∧
  (capacityWords 384 = 12 ∧ rateWords 384 = 13 ∧ rateBytes 384 = 104 ∧ digestBytes 384 = 48) ∧
  (capacityWords 512 = 16 ∧ rateWords 512 = 9 ∧ rateBytes 512 = 72 ∧ digestBytes 512 = 64) ∧
  ∀ b, legalWidth b = true → digestBytes b ≤ rateBytes b ∧ capacityWords b * 64 = 2 * b

/-- R171: NEW leaves the same instance from RESET as from any other state, up to `FAULT` and the channels. -/
def Obligations.NewForgetsThePast : Prop :=
  ∀ (s u : State) (b : Nat) (k : PadRule), b = 256 ∨ b = 384 ∨ b = 512 →
    ∃ t v, exec (.new b k) (resetEvent u) = .next t ∧ exec (.new b k) s = .next v ∧
      v = { t with fault := s.fault, input := s.input, responses := s.responses ++ [⟨0, []⟩] } ∧
      t.fault = none

/-! ## FLUSH_LANE and ABSORB -/

/-- R112: FLUSH_LANE in an instance XORs the word into the lane at the index, which is a rate lane, and advances the
index; at the rate it permutes and rewinds the index. -/
def Obligations.FlushLaneRule : Prop :=
  ∀ (s : State) (w : Lane), s.phase = .absorbing → invariantsHold s = true →
    ∃ A : Lanes,
      (∀ (i : Nat) (h : i < 25), A[i] = if i = s.wordIndex then s.lanes[i] ^^^ w else s.lanes[i]) ∧
      flushLane w s =
        if s.wordIndex + 1 = s.cfgRateW then { s with lanes := permute A, wordIndex := 0 }
        else { s with lanes := A, wordIndex := s.wordIndex + 1 }

/-- R142: ABSORB and FINALIZE outside phase Absorbing take InvalidState, as instructions and as records (whose
payload is consumed and discarded), and change nothing but `FAULT`. -/
def Obligations.InstanceCommandsNeedAbsorbing : Prop :=
  ∀ (s : State) (i : Instr), (i = .finalize ∨ ∃ payload, i = .absorb payload) → s.phase ≠ .absorbing →
    exec i s = .next { s with
      fault := stickyFault .invalidState s.fault
      responses := s.responses ++ [⟨2, []⟩] } ∧
    ∀ rest, wellFormed i = true → s.input = encode i ++ rest →
      step s = .next { s with
        input := rest
        fault := stickyFault .invalidState s.fault
        responses := s.responses ++ [⟨2, []⟩] }

/-- In an instance, ABSORB answers exactly the state that ABSORB_BYTE of each payload byte in order leaves: the form of
R114, which the spec marks as its own inference from R113 by induction on the length. -/
def Obligations.AbsorbIsByteAtATime : Prop :=
  ∀ (s : State) (payload : List Byte), s.phase = .absorbing → invariantsHold s = true →
    exec (.absorb payload) s = .next (respond 0 [] (payload.foldl absorbByte s))

/-- The four paths of R113 in an instance: a chunk too short for the partial lane is buffered; one that completes it
flushes it and goes on with the rest; with an empty partial lane a whole group is flushed and the rest goes on,
and fewer than eight bytes are buffered. -/
def Obligations.AbsorbFollowsItsSteps : Prop :=
  ∀ (s : State) (payload : List Byte), s.phase = .absorbing → invariantsHold s = true →
    exec (.absorb payload) s = .next (respond 0 [] (absorbData payload s)) ∧
    (payload.length < 8 - s.byteIndex →
      absorbData payload s = { s with
        saved := s.saved ||| (le64 payload <<< (8 * s.byteIndex))
        byteIndex := s.byteIndex + payload.length }) ∧
    (∀ head rest, payload = head ++ rest → head.length = 8 - s.byteIndex →
      absorbData payload s =
        absorbData rest
          (flushLane (s.saved ||| (le64 head <<< (8 * s.byteIndex))) { s with saved := 0, byteIndex := 0 }))

/-- ABSORB of an empty payload changes nothing, whatever the partial lane holds (R113, corner cases); it responds. -/
def Obligations.AbsorbOfNoBytes : Prop :=
  ∀ s : State, s.phase = .absorbing → invariantsHold s = true →
    exec (.absorb []) s = .next { s with responses := s.responses ++ [⟨0, []⟩] }

/-- The frame of ABSORB: it never writes `CFG` or `PHASE` (R113), consumes no further input, keeps the earlier
responses, and leaves `FAULT` alone unless it faults. The engine has no memory to write. -/
def Obligations.AbsorbFrame : Prop :=
  ∀ (s t : State) (payload : List Byte), exec (.absorb payload) s = .next t →
    t.cfgB = s.cfgB ∧ t.cfgCapW = s.cfgCapW ∧ t.cfgRateW = s.cfgRateW ∧ t.cfgRule = s.cfgRule ∧
    t.phase = s.phase ∧ t.input = s.input ∧ (∃ status, t.responses = s.responses ++ [⟨status, []⟩]) ∧
    (s.phase = .absorbing → invariantsHold s = true → t.fault = s.fault) ∧
    (s.phase ≠ .absorbing ∨ invariantsHold s = false →
      t.lanes = s.lanes ∧ t.saved = s.saved ∧ t.byteIndex = s.byteIndex ∧ t.wordIndex = s.wordIndex)

/-- "only lanes `[0, rate_words)` are ever XORed with input bytes" (R23): an ABSORB that does not fill the block leaves
every lane outside the words it completed, the capacity lanes among them, unchanged. -/
def Obligations.AbsorbWritesOnlyItsRateLanes : Prop :=
  ∀ (s : State) (payload : List Byte), s.phase = .absorbing → invariantsHold s = true →
    8 * s.wordIndex + s.byteIndex + payload.length < 8 * s.cfgRateW →
    ∃ t, exec (.absorb payload) s = .next t ∧ s.wordIndex ≤ t.wordIndex ∧ t.wordIndex < s.cfgRateW ∧
      ∀ (i : Nat) (h : i < 25), i < s.wordIndex ∨ t.wordIndex ≤ i → t.lanes[i] = s.lanes[i]

/-- R54: the byte at position `q = 8*i + j` of a block goes by XOR into byte `j` of lane `i` where its word is
complete, and waits at byte `j` of the partial lane where it is not (R27). -/
def Obligations.MessageBytesLandLittleEndian : Prop :=
  ∀ (s : State) (payload : List Byte), s.phase = .absorbing → invariantsHold s = true →
    s.wordIndex = 0 → s.byteIndex = 0 → payload.length < 8 * s.cfgRateW →
    ∃ t, exec (.absorb payload) s = .next t ∧
      (∀ (i j : Nat) (hi : i < 25) (_ : j < 8) (_ : 8 * i + 8 ≤ payload.length) (hq : 8 * i + j < payload.length),
        laneByte t.lanes[i] j = laneByte s.lanes[i] j ^^^ payload[8 * i + j]) ∧
      ∀ (j : Nat) (hq : 8 * (payload.length / 8) + j < payload.length),
        laneByte t.saved j = payload[8 * (payload.length / 8) + j]

/-- The position of the next byte inside the block, `8*WORD_INDEX + BYTE_INDEX` (R22), advances by the payload
length and wraps at the block length. -/
def Obligations.AbsorbAdvancesThePosition : Prop :=
  ∀ (s : State) (payload : List Byte), s.phase = .absorbing → invariantsHold s = true →
    ∃ t, exec (.absorb payload) s = .next t ∧
      8 * t.wordIndex + t.byteIndex =
        (8 * s.wordIndex + s.byteIndex + payload.length) % (8 * s.cfgRateW)

/-- One ABSORB of `n` bytes at position `o` of the block runs PERMUTE `(o + n) div rate_bytes` times, a count that R113
marks as derived. The run is counted where PERMUTE is run (`permuteCounted`), and its state is the one that ABSORB
answers. -/
def Obligations.AbsorbPermutationCount : Prop :=
  ∀ (s : State) (payload : List Byte), s.phase = .absorbing → invariantsHold s = true →
    ∃ t n, absorbCounted payload (s, 0) = (t, n) ∧ exec (.absorb payload) s = .next t ∧
      n = (8 * s.wordIndex + s.byteIndex + payload.length) / (8 * s.cfgRateW)

/-- The state after a NEW and any chunking of a message in closed form: R115, which the spec marks as its own inference
from R114 by induction. The PERMUTE count is that of the counted run, whose state is the one the commands leave. -/
def Obligations.StateAfterAbsorbingInClosedForm : Prop :=
  ∀ (s : State) (b : Nat) (k : PadRule) (chunks : List (List Byte)), b = 256 ∨ b = 384 ∨ b = 512 →
    let M := chunks.flatten
    let R := 8 * (25 - 2 * b / 64)
    ∃ t, runCommands (.new b k :: chunks.map .absorb) s = .next t ∧
      t.byteIndex = M.length % 8 ∧ t.wordIndex = M.length % R / 8 ∧ t.saved = savedAfter M ∧
      t.lanes = lanesAfter R M ∧ t.phase = .absorbing ∧ t.cfgB = b ∧ t.cfgRule = k ∧
      8 * t.wordIndex + t.byteIndex = M.length % R ∧
      absorbsCounted chunks (newCounted b k (s, 0)) = (t, M.length / R)

/-- The PERMUTE count of a whole instance, `(L div rate_bytes) + 1`: R123, which the spec marks as derived from R115 and
R116. The state of the counted run is the one the commands leave. -/
def Obligations.PermutationCountOfAnInstance : Prop :=
  ∀ (s : State) (b : Nat) (k : PadRule) (chunks : List (List Byte)), b = 256 ∨ b = 384 ∨ b = 512 →
    ∃ t, runCommands (.new b k :: (chunks.map .absorb ++ [.finalize])) s = .next t ∧
      finalizeCounted (absorbsCounted chunks (newCounted b k (s, 0))) =
        (t, chunks.flatten.length / (8 * (25 - 2 * b / 64)) + 1)

/-- After NEW, any two chunkings of the same bytes leave the same lanes and bookkeeping, and FINALIZE then responds with
the same digest: R119, whose form for the whole state the spec marks as its own inference from R114. -/
def Obligations.StreamingEquivalence : Prop :=
  ∀ (s : State) (b : Nat) (k : PadRule) (xs ys : List (List Byte)), b = 256 ∨ b = 384 ∨ b = 512 →
    xs.flatten = ys.flatten →
    ∃ t u t' u', runCommands (.new b k :: xs.map .absorb) s = .next t ∧
      runCommands (.new b k :: ys.map .absorb) s = .next u ∧
      t.lanes = u.lanes ∧ t.saved = u.saved ∧ t.byteIndex = u.byteIndex ∧ t.wordIndex = u.wordIndex ∧
      exec .finalize t = .next t' ∧ exec .finalize u = .next u' ∧
      lastStatus t' = 0 ∧ lastStatus u' = 0 ∧ lastData t' = lastData u'

/-! ## FINALIZE, the digest and HASH -/

/-- R116: FINALIZE in an instance XORs the suffix with the partial lane and the terminator into their lanes, permutes
once, ends the instance and responds with the 200 bytes, leaving everything else; outside phase Absorbing it takes
InvalidState. -/
def Obligations.FinalizePadsPermutesAndAnswers : Prop :=
  ∀ s : State,
    (s.phase = .absorbing → invariantsHold s = true →
      ∃ A : Lanes,
        (∀ (i : Nat) (h : i < 25), A[i] =
          s.lanes[i] ^^^
            (if i = s.wordIndex then
              s.saved ^^^ ((if s.cfgRule = .keccak then 0x01#64 else 0x06#64) <<< (8 * s.byteIndex))
            else 0) ^^^
            (if i = s.cfgRateW - 1 then 0x8000000000000000#64 else 0)) ∧
        exec .finalize s = .next { s with
          lanes := permute A
          phase := .finalized
          responses := s.responses ++ [⟨0, (List.finRange 200).map (outByte (permute A))⟩] }) ∧
    (s.phase ≠ .absorbing →
      exec .finalize s = .next { s with
        fault := stickyFault .invalidState s.fault
        responses := s.responses ++ [⟨2, []⟩] })

/-- R117 by the position in the block, `8*WORD_INDEX + BYTE_INDEX`, which R115 (an inference the spec marks as its own)
equates with the `L mod rate_bytes` that R117 speaks of, in a sentence it marks as derived. Where suffix and terminator fall on one lane it receives both, and where they fall on one byte that byte
receives 0x86 or 0x81; when that happens, in terms of the position in the block; otherwise two lanes receive one
each. -/
def Obligations.SuffixAndTerminatorCompose : Prop :=
  ∀ s : State, s.phase = .absorbing → invariantsHold s = true →
    (s.wordIndex + 1 = s.cfgRateW ↔ 8 * s.cfgRateW - 8 ≤ 8 * s.wordIndex + s.byteIndex) ∧
    (s.wordIndex + 1 = s.cfgRateW ∧ s.byteIndex = 7 ↔
      8 * s.wordIndex + s.byteIndex = 8 * s.cfgRateW - 1) ∧
    ∀ (hw : s.wordIndex < 25) (hr : s.cfgRateW - 1 < 25),
      (s.wordIndex + 1 = s.cfgRateW →
        (padLanes s).lanes[s.wordIndex] =
          s.lanes[s.wordIndex] ^^^
            (s.saved ^^^ suffixValue s.cfgRule s.byteIndex ^^^ 0x8000000000000000#64) ∧
        (s.byteIndex = 7 →
          laneByte (padLanes s).lanes[s.wordIndex] 7 =
            laneByte s.lanes[s.wordIndex] 7 ^^^ (if s.cfgRule = .sha3 then 0x86#8 else 0x81#8))) ∧
      (s.wordIndex + 1 ≠ s.cfgRateW →
        (padLanes s).lanes[s.wordIndex] =
          s.lanes[s.wordIndex] ^^^ (s.saved ^^^ suffixValue s.cfgRule s.byteIndex) ∧
        (padLanes s).lanes[s.cfgRateW - 1] = s.lanes[s.cfgRateW - 1] ^^^ 0x8000000000000000#64)

/-- The frame of FINALIZE: it leaves `CFG`, and also `SAVED`, `BYTE_INDEX` and `WORD_INDEX`, unchanged (R116), consumes
no further input, keeps the earlier responses, and leaves `FAULT` alone unless it faults. -/
def Obligations.FinalizeFrame : Prop :=
  ∀ s t : State, exec .finalize s = .next t →
    t.cfgB = s.cfgB ∧ t.cfgCapW = s.cfgCapW ∧ t.cfgRateW = s.cfgRateW ∧ t.cfgRule = s.cfgRule ∧
    t.saved = s.saved ∧ t.byteIndex = s.byteIndex ∧ t.wordIndex = s.wordIndex ∧ t.input = s.input ∧
    (∃ r, t.responses = s.responses ++ [r]) ∧
    (s.phase = .absorbing → invariantsHold s = true → t.fault = s.fault) ∧
    (s.phase ≠ .absorbing ∨ invariantsHold s = false → t.lanes = s.lanes ∧ t.phase = s.phase)

/-- The state FINALIZE leaves after any chunking of a message is that of absorbing the padded message block by block, and
the digest window of its response is `Digest(M, B, rule)`: R124, which the spec marks as its own inference from R115
and R116. -/
def Obligations.FinalizeAbsorbsThePaddedMessage : Prop :=
  ∀ (s : State) (b : Nat) (k : PadRule) (chunks : List (List Byte)), b = 256 ∨ b = 384 ∨ b = 512 →
    ∃ t, runCommands (.new b k :: (chunks.map .absorb ++ [.finalize])) s = .next t ∧
      t.phase = .finalized ∧ lastStatus t = 0 ∧
      t.lanes = finalLanes b k chunks.flatten ∧
      lastData t = outImage (finalLanes b k chunks.flatten) ∧
      digestWindow t.cfgB (lastData t) = messageDigest chunks.flatten b k

/-- R118: HASH with a legal width returns `Digest(bytes, b, k)`, for a message of any length; its only exception is
InvalidConfiguration from its NEW, after which nothing else is run. -/
def Obligations.HashComputesTheDigest : Prop :=
  ∀ (s : State) (bytes : List Byte) (b : Nat) (k : PadRule),
    (b = 256 ∨ b = 384 ∨ b = 512 →
      ∃ t, runHash bytes b k s = .next (t, .digest (messageDigest bytes b k)) ∧ t.phase = .finalized ∧
        t.fault = s.fault) ∧
    (b ≠ 256 → b ≠ 384 → b ≠ 512 →
      runHash bytes b k s = .next (takeException .invalidConfiguration s, .error 1))

/-- The expansion of HASH (R80): NEW, the message in payloads that fit one ABSORB each, FINALIZE. That a message of
a multiple of `MAXLEN` bytes ends with an empty payload is the model's choice (log entry 10). -/
def Obligations.HashExpansion : Prop :=
  ∀ (bytes : List Byte) (b : Nat) (k : PadRule),
    ∃ payloads : List (List Byte),
      hashCommands bytes b k = .new b k :: (payloads.map .absorb ++ [.finalize]) ∧
      payloads.flatten = bytes ∧ payloads ≠ [] ∧ (∀ p ∈ payloads, p.length ≤ 16777215) ∧
      (∀ p ∈ payloads.dropLast, p.length = 16777215) ∧
      (bytes.length ≤ 16777215 → payloads = [bytes])

/-- The output image has 200 bytes; for a legal width the digest is its first `B/8` bytes, lanes `0, 1, 2, …` in full as 8
little-endian bytes each (R53, R121). The last clause, that "it never ends inside a lane and never reaches a capacity
lane", is a sentence R53 marks as derived from R6. -/
def Obligations.DigestIsTheFirstLanes : Prop :=
  ∀ (A : Lanes) (b : Nat), b = 256 ∨ b = 384 ∨ b = 512 →
    (outImage A).length = 200 ∧ (digestWindow b (outImage A)).length = b / 8 ∧
    digestWindow b (outImage A) =
      (A.toList.take (b / 64)).flatMap (fun v => (List.range 8).map fun j => v.extractLsb' (8 * j) 8) ∧
    b / 64 ≤ 25 - 2 * b / 64

/-- The host's read of `OUT` (R52): byte `a mod 8` of lane `a div 8` in phase Finalized, refused in every other phase.
That an offset above 199 faults, and after the phase check, is the model's choice (log entry 9). -/
def Obligations.OutputImageReads : Prop :=
  ∀ (s : State) (a : Nat),
    (s.phase = .finalized → ∀ h : a < 200,
      readOut a s = .next (BitVec.ofNat 8 ((s.lanes[a / 8]'(by omega)).toNat / 2 ^ (8 * (a % 8))))) ∧
    (s.phase = .finalized → 200 ≤ a → readOut a s = .fault .outOffset) ∧
    (s.phase ≠ .finalized → readOut a s = .refused .outNotValid)

/-- `OUT` "stays valid and unchanged until the next successful NEW" (R52), or RESET (R170): every other event, the
reads and the commands that fault after FINALIZE among them (R56, R173), leaves it. -/
def Obligations.OutputStaysUntilNew : Prop :=
  ∀ (s : State) (e : Event), s.phase = .finalized → e ≠ .assertReset →
    (e = .engineStep → ∀ b k rest, decode s.input = .record (.new b k) rest →
      b ≠ 256 ∧ b ≠ 384 ∧ b ≠ 512) →
    (onEvent e s).phase = .finalized ∧ (onEvent e s).cfgB = s.cfgB ∧
    ∀ a, readOut a (onEvent e s) = readOut a s

/-! ## Exceptions, phases and the invariant -/

/-- R145: a command whose response has a non-zero status has recorded its code if `FAULT` was 0, has responded
`(code, empty)`, and has left every other field as it was. -/
def Obligations.ExceptionChangesOnlyTheRecord : Prop :=
  ∀ (i : Instr) (s t : State) (status : Byte) (data : List Byte),
    exec i s = .next t → t.responses = s.responses ++ [⟨status, data⟩] → status ≠ 0 →
    ∃ e : Exc, status = BitVec.ofNat 8 (excCode e) ∧
      t = { s with
        fault := if s.fault = none then some e else s.fault
        responses := s.responses ++ [⟨status, []⟩] }

/-- R32: `FAULT` has the codes 0 to 4; only a faulting command writes it and only when it is 0; only RESET clears it;
no command reads it. -/
def Obligations.FaultRecordIsSticky : Prop :=
  (faultValue none = 0 ∧ faultValue (some .invalidConfiguration) = 1 ∧ faultValue (some .invalidState) = 2 ∧
    faultValue (some .invalidCommand) = 3 ∧ faultValue (some .invariantViolation) = 4) ∧
  (∀ (e : Event) (s : State) (f : Exc), s.fault = some f → e ≠ .assertReset → (onEvent e s).fault = some f) ∧
  (∀ (e : Event) (s : State) (f : Exc), s.fault = none → (onEvent e s).fault = some f →
    e = .engineStep ∧ (onEvent e s).responses = s.responses ++ [⟨BitVec.ofNat 8 (excCode f), []⟩]) ∧
  (∀ s : State, (onEvent .assertReset s).fault = none) ∧
  ∀ (s : State) (f : Option Exc), ∃ t u, step s = .next t ∧ step { s with fault := f } = .next u ∧
    u = { t with fault := u.fault }

/-- R144: in phase Absorbing, a state that breaks one of the four invariants makes ABSORB and FINALIZE take
InvariantViolation and change nothing else. -/
def Obligations.BrokenInvariantIsReported : Prop :=
  ∀ (s : State) (i : Instr), (i = .finalize ∨ ∃ payload, i = .absorb payload) → s.phase = .absorbing →
    (8 ≤ s.byteIndex ∨ s.cfgRateW ≤ s.wordIndex ∨
      (∃ n, s.byteIndex ≤ n ∧ n < 8 ∧ laneByte s.saved n ≠ 0) ∨
      ¬ ((s.cfgB = 256 ∧ s.cfgCapW = 8 ∧ s.cfgRateW = 17) ∨ (s.cfgB = 384 ∧ s.cfgCapW = 12 ∧ s.cfgRateW = 13) ∨
        (s.cfgB = 512 ∧ s.cfgCapW = 16 ∧ s.cfgRateW = 9))) →
    exec i s = .next { s with
      fault := stickyFault .invariantViolation s.fault
      responses := s.responses ++ [⟨4, []⟩] }

/-- R146 with the codes of R140: an illegal word is reported before anything else; NEW reports its width and never
the phase; ABSORB and FINALIZE report the phase before the invariants; each command reports exactly one code. -/
def Obligations.ExceptionPriority : Prop :=
  (∀ (s : State) (hdr : Word32) (rest : List Byte), s.input = headerBytes hdr ++ rest →
    illegalWord hdr = true → ∃ t, step s = .next t ∧ t.responses = s.responses ++ [⟨3, []⟩]) ∧
  ∀ (s : State) (i : Instr), ∃ t data, exec i s = .next t ∧
    t.responses = s.responses ++ [⟨match i with
      | .new b _ => if b = 256 ∨ b = 384 ∨ b = 512 then 0 else 1
      | .absorb _ => if s.phase ≠ .absorbing then 2 else if invariantsHold s = true then 0 else 4
      | .finalize => if s.phase ≠ .absorbing then 2 else if invariantsHold s = true then 0 else 4, data⟩]

/-- R31 and R110: the five transitions, one per legal pair of phase and command; every other pair leaves `PHASE`. -/
def Obligations.PhaseTransitions : Prop :=
  ∀ (s : State) (i : Instr), ∃ t, exec i s = .next t ∧
    t.phase = match i with
      | .new b _ => if b = 256 ∨ b = 384 ∨ b = 512 then .absorbing else s.phase
      | .absorb _ => s.phase
      | .finalize => if s.phase = .absorbing ∧ invariantsHold s = true then .finalized else s.phase

/-- R26: no command but NEW writes a field of the configuration. -/
def Obligations.ConfigurationIsWrittenByNewAlone : Prop :=
  ∀ (s t : State) (i : Instr), exec i s = .next t →
    (∃ b k, i = .new b k ∧ (b = 256 ∨ b = 384 ∨ b = 512)) ∨
    (t.cfgB = s.cfgB ∧ t.cfgCapW = s.cfgCapW ∧ t.cfgRateW = s.cfgRateW ∧ t.cfgRule = s.cfgRule)

/-- The invariants of R30 hold wherever an instance exists: every step keeps that, and every host event does. -/
def Obligations.InvariantsAreKept : Prop :=
  ∀ s : State, s.Inv →
    (∀ t, step s = .next t → t.Inv) ∧ ∀ e : Event, (onEvent e s).Inv

/-- The invariant holds at reset. -/
def Obligations.InvariantsHoldAtReset : Prop := State.reset.Inv

/-- "No sequence of commands from reset reaches a state that breaks them" (R144): in every run from reset, whatever
bytes the host sends, InvariantViolation is neither recorded nor responded. -/
def Obligations.InvariantViolationIsUnreachable : Prop :=
  ∀ s : State, s.Reachable →
    s.Inv ∧ s.fault ≠ some .invariantViolation ∧ ∀ r ∈ s.responses, r.status ≠ 4

/-- The step lemma behind it: the invariants wherever an instance exists, `FAULT` not InvariantViolation and no response
of status 4 are kept together by every event, from every state that has the three, reachable or not. -/
def Obligations.InvariantViolationStaysUnreported : Prop :=
  ∀ (s : State) (e : Event),
    (s.Inv ∧ s.fault ≠ some .invariantViolation ∧ ∀ r ∈ s.responses, r.status ≠ 4) →
    (onEvent e s).Inv ∧ (onEvent e s).fault ≠ some .invariantViolation ∧
      ∀ r ∈ (onEvent e s).responses, r.status ≠ 4

/-! ## RESET -/

/-- The values R37 gives after reset, `OUT` not valid among them. (The values of `CFG` there are the model's choice,
log entry 4, and are not stated.) -/
def Obligations.ResetValues : Prop :=
  State.reset.lanes = Vector.replicate 25 0 ∧ State.reset.saved = 0 ∧ State.reset.byteIndex = 0 ∧
  State.reset.wordIndex = 0 ∧ State.reset.phase = .idle ∧ State.reset.fault = none ∧
  ∀ a, readOut a State.reset = .refused .outNotValid

/-- R170: RESET sets every field of R37 from every state; it is the only event that clears `FAULT` and the only way
back to Idle. -/
def Obligations.ResetAloneClearsFaultAndInstance : Prop :=
  (∀ s : State,
    (onEvent .assertReset s).lanes = Vector.replicate 25 0 ∧ (onEvent .assertReset s).saved = 0 ∧
    (onEvent .assertReset s).byteIndex = 0 ∧ (onEvent .assertReset s).wordIndex = 0 ∧
    (onEvent .assertReset s).phase = .idle ∧ (onEvent .assertReset s).fault = none) ∧
  (∀ (s : State) (e : Event), s.fault ≠ none → (onEvent e s).fault = none → e = .assertReset) ∧
  ∀ (s : State) (e : Event), s.phase ≠ .idle → (onEvent e s).phase = .idle → e = .assertReset

/-! ## The permutation -/

/-- R90: ROTL64 on its domain is the two shifts, and moves bit `i` to bit `(i + n) mod 64`. -/
def Obligations.RotationMovesBits : Prop :=
  ∀ (v : Lane) (n : Nat), 1 ≤ n → n ≤ 63 →
    rotl64 v n = ((v <<< n) ||| (v >>> (64 - n))) ∧
    ∀ i, i < 64 → (rotl64 v n).getLsbD ((i + n) % 64) = v.getLsbD i

/-- R35: every offset lies in 1..62, and the traversal visits each of the lanes 1..24 exactly once and never lane 0. -/
def Obligations.TraversalTables : Prop :=
  (∀ i : Fin 24, 1 ≤ rhoOffsets[i] ∧ rhoOffsets[i] ≤ 62) ∧
  (∀ i : Fin 24, piSequence[i] ≠ 0) ∧
  (∀ i j : Fin 24, piSequence[i] = piSequence[j] → i = j) ∧
  ∀ l : Fin 25, l ≠ 0 → ∃ i : Fin 24, piSequence[i] = l

/-- R91 by column and row: each lane receives the parity of the column before and the rotated parity of the column
after, all taken from the input. -/
def Obligations.ThetaRule : Prop :=
  ∀ (A : Lanes) (x y : Nat) (hx : x < 5) (hy : y < 5),
    let C : (x : Nat) → x < 5 → Lane := fun x _ =>
      A[x] ^^^ A[x + 5] ^^^ A[x + 10] ^^^ A[x + 15] ^^^ A[x + 20]
    (theta A)[x + 5 * y] =
      A[x + 5 * y] ^^^
        (C ((x + 4) % 5) (Nat.mod_lt _ (by decide)) ^^^ rotl64 (C ((x + 1) % 5) (Nat.mod_lt _ (by decide))) 1)

/-- R93: the fused pass moves lane `s` to `DST[s]` rotated by `ROT[s]`, leaves lane 0, and is a bijection. -/
def Obligations.RhoPiUnfused : Prop :=
  (∀ A : Lanes, (rhoPi A)[0] = A[0] ∧
    ∀ s : Fin 24, (rhoPi A)[laneTarget[s]] = rotl64 (A[s.val + 1]'(by omega)) laneRotation[s]) ∧
  Function.Bijective rhoPi

/-- R94 by row and column: each lane of the output reads three lanes of the input's row, wrapping inside the row. -/
def Obligations.ChiRule : Prop :=
  ∀ (A : Lanes) (x y : Nat) (hx : x < 5) (hy : y < 5),
    (chi A)[5 * y + x] =
      A[5 * y + x] ^^^
        ((~~~ A[5 * y + (x + 1) % 5]'(by omega)) &&& A[5 * y + (x + 2) % 5]'(by omega))

/-- IOTA changes lane 0 only, by the round's constant (R95). That it undoes itself is not in R95: it stands in
95_test_vectors.md V6, a derived section, and in the derived note of R98. -/
def Obligations.IotaRule : Prop :=
  ∀ (A : Lanes) (r : Fin 24),
    (iota A r)[0] = A[0] ^^^ roundConstants[r] ∧
    (∀ (i : Nat) (h : i < 25), 0 < i → (iota A r)[i] = A[i]) ∧ iota (iota A r) r = A

/-- R96 and R97: PERMUTE is rounds 0 to 23 in order, each Theta, Rho with Pi, Chi, Iota. -/
def Obligations.PermuteRunsTheRoundsInOrder : Prop :=
  ∀ A : Lanes, ∃ B : Nat → Lanes, B 0 = A ∧
    (∀ r : Fin 24, B (r.val + 1) = iota (chi (rhoPi (theta (B r.val)))) r) ∧ permute A = B 24

/-- The known values of R97 (95_test_vectors.md E1). -/
def Obligations.PermuteKnownLanes : Prop :=
  let P := permute (Vector.replicate 25 0)
  P[0] = 0xF1258F7940E1DDE7 ∧ P[1] = 0x84D5CCF933C0478A ∧
  (permute P)[0] = 0x2D5C954DF96ECB3C ∧ (permute P)[1] = 0x6A332CD07057B56D

/-- Permute is a bijection on 25-lane arrays: R98, which the spec marks as derived, with support from general knowledge
(93_implementation_defined.md G3). -/
def Obligations.PermuteIsBijective : Prop := Function.Bijective permute

/-- What the rules give of R122 for every message, by an inference the spec marks as its own (from R116 and R98): from one state, FINALIZE under the two padding rules responds with
two different 200-byte images. (The truncated digests are not claimed, U15.) -/
def Obligations.PaddingRulesGiveDifferentImages : Prop :=
  ∀ s : State, s.phase = .absorbing → invariantsHold s = true →
    ∃ t u, exec .finalize { s with cfgRule := .sha3 } = .next t ∧
      exec .finalize { s with cfgRule := .keccak } = .next u ∧
      lastStatus t = 0 ∧ lastStatus u = 0 ∧ lastData t ≠ lastData u

/-! ## Several engines and the assembler -/

/-- R61: any interleaving of the event streams of different engines gives each engine the state of running its own
stream alone. -/
def Obligations.EnginesAreIndependent : Prop :=
  ∀ (schedule : List (Nat × Event)) (y : EngineSystem), (∀ p ∈ schedule, p.1 < y.engines.length) →
    ∃ z, systemRun schedule y = .next z ∧ z.engines.length = y.engines.length ∧
      ∀ (i : Nat) (s : State), y.engines[i]? = some s →
        z.engines[i]? = some (runEvents (streamOf i schedule) s)

/-- The sugar of R81: `NEW256 <rule>` is `NEW 256, <rule>`, and so for 384 and 512. -/
def Obligations.NewSugarExpands : Prop :=
  ∀ (name : List Char) (k : PadRule), ruleName name = some k →
    lineCommands [.word ['N', 'E', 'W', '2', '5', '6'], .word name] = some [.new 256 k] ∧
    lineCommands [.word ['N', 'E', 'W', '3', '8', '4'], .word name] = some [.new 384 k] ∧
    lineCommands [.word ['N', 'E', 'W', '5', '1', '2'], .word name] = some [.new 512 k]
end

