-- ==== Sys2Proof/Laws/State.lean ====
section
/-! SUPPORT. One lemma per field and update of the state, each true by rfl, so that no proof unfolds an update. -/

namespace Sys2Proof.Machine

section
variable (rest : List Byte) (s : State)
@[simp] theorem setInput_lanes : (setInput rest s).lanes = s.lanes := rfl
@[simp] theorem setInput_cfgB : (setInput rest s).cfgB = s.cfgB := rfl
@[simp] theorem setInput_cfgCapW : (setInput rest s).cfgCapW = s.cfgCapW := rfl
@[simp] theorem setInput_cfgRateW : (setInput rest s).cfgRateW = s.cfgRateW := rfl
@[simp] theorem setInput_cfgRule : (setInput rest s).cfgRule = s.cfgRule := rfl
@[simp] theorem setInput_saved : (setInput rest s).saved = s.saved := rfl
@[simp] theorem setInput_byteIndex : (setInput rest s).byteIndex = s.byteIndex := rfl
@[simp] theorem setInput_wordIndex : (setInput rest s).wordIndex = s.wordIndex := rfl
@[simp] theorem setInput_phase : (setInput rest s).phase = s.phase := rfl
@[simp] theorem setInput_fault : (setInput rest s).fault = s.fault := rfl
@[simp] theorem setInput_input : (setInput rest s).input = rest := rfl
@[simp] theorem setInput_responses : (setInput rest s).responses = s.responses := rfl
end

section
variable (st : Byte) (d : List Byte) (s : State)
@[simp] theorem respond_lanes : (respond st d s).lanes = s.lanes := rfl
@[simp] theorem respond_cfgB : (respond st d s).cfgB = s.cfgB := rfl
@[simp] theorem respond_cfgCapW : (respond st d s).cfgCapW = s.cfgCapW := rfl
@[simp] theorem respond_cfgRateW : (respond st d s).cfgRateW = s.cfgRateW := rfl
@[simp] theorem respond_cfgRule : (respond st d s).cfgRule = s.cfgRule := rfl
@[simp] theorem respond_saved : (respond st d s).saved = s.saved := rfl
@[simp] theorem respond_byteIndex : (respond st d s).byteIndex = s.byteIndex := rfl
@[simp] theorem respond_wordIndex : (respond st d s).wordIndex = s.wordIndex := rfl
@[simp] theorem respond_phase : (respond st d s).phase = s.phase := rfl
@[simp] theorem respond_fault : (respond st d s).fault = s.fault := rfl
@[simp] theorem respond_input : (respond st d s).input = s.input := rfl
@[simp] theorem respond_responses : (respond st d s).responses = s.responses ++ [⟨st, d⟩] := rfl
end

section
variable (e : Exc) (s : State)
@[simp] theorem recordFault_lanes : (recordFault e s).lanes = s.lanes := rfl
@[simp] theorem recordFault_cfgB : (recordFault e s).cfgB = s.cfgB := rfl
@[simp] theorem recordFault_cfgCapW : (recordFault e s).cfgCapW = s.cfgCapW := rfl
@[simp] theorem recordFault_cfgRateW : (recordFault e s).cfgRateW = s.cfgRateW := rfl
@[simp] theorem recordFault_cfgRule : (recordFault e s).cfgRule = s.cfgRule := rfl
@[simp] theorem recordFault_saved : (recordFault e s).saved = s.saved := rfl
@[simp] theorem recordFault_byteIndex : (recordFault e s).byteIndex = s.byteIndex := rfl
@[simp] theorem recordFault_wordIndex : (recordFault e s).wordIndex = s.wordIndex := rfl
@[simp] theorem recordFault_phase : (recordFault e s).phase = s.phase := rfl
@[simp] theorem recordFault_fault : (recordFault e s).fault = stickyFault e s.fault := rfl
@[simp] theorem recordFault_input : (recordFault e s).input = s.input := rfl
@[simp] theorem recordFault_responses : (recordFault e s).responses = s.responses := rfl
end

section
variable (e : Exc) (s : State)
@[simp] theorem takeException_lanes : (takeException e s).lanes = s.lanes := rfl
@[simp] theorem takeException_cfgB : (takeException e s).cfgB = s.cfgB := rfl
@[simp] theorem takeException_cfgCapW : (takeException e s).cfgCapW = s.cfgCapW := rfl
@[simp] theorem takeException_cfgRateW : (takeException e s).cfgRateW = s.cfgRateW := rfl
@[simp] theorem takeException_cfgRule : (takeException e s).cfgRule = s.cfgRule := rfl
@[simp] theorem takeException_saved : (takeException e s).saved = s.saved := rfl
@[simp] theorem takeException_byteIndex : (takeException e s).byteIndex = s.byteIndex := rfl
@[simp] theorem takeException_wordIndex : (takeException e s).wordIndex = s.wordIndex := rfl
@[simp] theorem takeException_phase : (takeException e s).phase = s.phase := rfl
@[simp] theorem takeException_fault : (takeException e s).fault = stickyFault e s.fault := rfl
@[simp] theorem takeException_input : (takeException e s).input = s.input := rfl
@[simp] theorem takeException_responses : (takeException e s).responses = s.responses ++ [⟨excStatus e, []⟩] := rfl
end

section
variable (s : State)
@[simp] theorem permuteLanes_lanes : (permuteLanes s).lanes = permute s.lanes := rfl
@[simp] theorem permuteLanes_cfgB : (permuteLanes s).cfgB = s.cfgB := rfl
@[simp] theorem permuteLanes_cfgCapW : (permuteLanes s).cfgCapW = s.cfgCapW := rfl
@[simp] theorem permuteLanes_cfgRateW : (permuteLanes s).cfgRateW = s.cfgRateW := rfl
@[simp] theorem permuteLanes_cfgRule : (permuteLanes s).cfgRule = s.cfgRule := rfl
@[simp] theorem permuteLanes_saved : (permuteLanes s).saved = s.saved := rfl
@[simp] theorem permuteLanes_byteIndex : (permuteLanes s).byteIndex = s.byteIndex := rfl
@[simp] theorem permuteLanes_wordIndex : (permuteLanes s).wordIndex = s.wordIndex := rfl
@[simp] theorem permuteLanes_phase : (permuteLanes s).phase = s.phase := rfl
@[simp] theorem permuteLanes_fault : (permuteLanes s).fault = s.fault := rfl
@[simp] theorem permuteLanes_input : (permuteLanes s).input = s.input := rfl
@[simp] theorem permuteLanes_responses : (permuteLanes s).responses = s.responses := rfl
end

section
variable (s : State) (v : Byte)
@[simp] theorem bufferByte_lanes : (bufferByte s v).lanes = s.lanes := rfl
@[simp] theorem bufferByte_cfgB : (bufferByte s v).cfgB = s.cfgB := rfl
@[simp] theorem bufferByte_cfgCapW : (bufferByte s v).cfgCapW = s.cfgCapW := rfl
@[simp] theorem bufferByte_cfgRateW : (bufferByte s v).cfgRateW = s.cfgRateW := rfl
@[simp] theorem bufferByte_cfgRule : (bufferByte s v).cfgRule = s.cfgRule := rfl
@[simp] theorem bufferByte_saved : (bufferByte s v).saved = s.saved ||| (zext64 v <<< (8 * s.byteIndex)) := rfl
@[simp] theorem bufferByte_byteIndex : (bufferByte s v).byteIndex = s.byteIndex + 1 := rfl
@[simp] theorem bufferByte_wordIndex : (bufferByte s v).wordIndex = s.wordIndex := rfl
@[simp] theorem bufferByte_phase : (bufferByte s v).phase = s.phase := rfl
@[simp] theorem bufferByte_fault : (bufferByte s v).fault = s.fault := rfl
@[simp] theorem bufferByte_input : (bufferByte s v).input = s.input := rfl
@[simp] theorem bufferByte_responses : (bufferByte s v).responses = s.responses := rfl
end

section
variable (s : State)
@[simp] theorem clearSaved_lanes : (clearSaved s).lanes = s.lanes := rfl
@[simp] theorem clearSaved_cfgB : (clearSaved s).cfgB = s.cfgB := rfl
@[simp] theorem clearSaved_cfgCapW : (clearSaved s).cfgCapW = s.cfgCapW := rfl
@[simp] theorem clearSaved_cfgRateW : (clearSaved s).cfgRateW = s.cfgRateW := rfl
@[simp] theorem clearSaved_cfgRule : (clearSaved s).cfgRule = s.cfgRule := rfl
@[simp] theorem clearSaved_saved : (clearSaved s).saved = 0 := rfl
@[simp] theorem clearSaved_byteIndex : (clearSaved s).byteIndex = 0 := rfl
@[simp] theorem clearSaved_wordIndex : (clearSaved s).wordIndex = s.wordIndex := rfl
@[simp] theorem clearSaved_phase : (clearSaved s).phase = s.phase := rfl
@[simp] theorem clearSaved_fault : (clearSaved s).fault = s.fault := rfl
@[simp] theorem clearSaved_input : (clearSaved s).input = s.input := rfl
@[simp] theorem clearSaved_responses : (clearSaved s).responses = s.responses := rfl
end

section
variable (w : Lane) (s : State)
@[simp] theorem putWord_lanes : (putWord w s).lanes = xorLane s.lanes s.wordIndex w := rfl
@[simp] theorem putWord_cfgB : (putWord w s).cfgB = s.cfgB := rfl
@[simp] theorem putWord_cfgCapW : (putWord w s).cfgCapW = s.cfgCapW := rfl
@[simp] theorem putWord_cfgRateW : (putWord w s).cfgRateW = s.cfgRateW := rfl
@[simp] theorem putWord_cfgRule : (putWord w s).cfgRule = s.cfgRule := rfl
@[simp] theorem putWord_saved : (putWord w s).saved = s.saved := rfl
@[simp] theorem putWord_byteIndex : (putWord w s).byteIndex = s.byteIndex := rfl
@[simp] theorem putWord_wordIndex : (putWord w s).wordIndex = s.wordIndex + 1 := rfl
@[simp] theorem putWord_phase : (putWord w s).phase = s.phase := rfl
@[simp] theorem putWord_fault : (putWord w s).fault = s.fault := rfl
@[simp] theorem putWord_input : (putWord w s).input = s.input := rfl
@[simp] theorem putWord_responses : (putWord w s).responses = s.responses := rfl
end

section
variable (s : State)
@[simp] theorem rewindWord_lanes : (rewindWord s).lanes = s.lanes := rfl
@[simp] theorem rewindWord_cfgB : (rewindWord s).cfgB = s.cfgB := rfl
@[simp] theorem rewindWord_cfgCapW : (rewindWord s).cfgCapW = s.cfgCapW := rfl
@[simp] theorem rewindWord_cfgRateW : (rewindWord s).cfgRateW = s.cfgRateW := rfl
@[simp] theorem rewindWord_cfgRule : (rewindWord s).cfgRule = s.cfgRule := rfl
@[simp] theorem rewindWord_saved : (rewindWord s).saved = s.saved := rfl
@[simp] theorem rewindWord_byteIndex : (rewindWord s).byteIndex = s.byteIndex := rfl
@[simp] theorem rewindWord_wordIndex : (rewindWord s).wordIndex = 0 := rfl
@[simp] theorem rewindWord_phase : (rewindWord s).phase = s.phase := rfl
@[simp] theorem rewindWord_fault : (rewindWord s).fault = s.fault := rfl
@[simp] theorem rewindWord_input : (rewindWord s).input = s.input := rfl
@[simp] theorem rewindWord_responses : (rewindWord s).responses = s.responses := rfl
end

section
variable (b : Nat) (k : PadRule) (s : State)
@[simp] theorem startInstance_lanes : (startInstance b k s).lanes = zeroLanes := rfl
@[simp] theorem startInstance_cfgB : (startInstance b k s).cfgB = b := rfl
@[simp] theorem startInstance_cfgCapW : (startInstance b k s).cfgCapW = capacityWords b := rfl
@[simp] theorem startInstance_cfgRateW : (startInstance b k s).cfgRateW = 25 - capacityWords b := rfl
@[simp] theorem startInstance_cfgRule : (startInstance b k s).cfgRule = k := rfl
@[simp] theorem startInstance_saved : (startInstance b k s).saved = 0 := rfl
@[simp] theorem startInstance_byteIndex : (startInstance b k s).byteIndex = 0 := rfl
@[simp] theorem startInstance_wordIndex : (startInstance b k s).wordIndex = 0 := rfl
@[simp] theorem startInstance_phase : (startInstance b k s).phase = .absorbing := rfl
@[simp] theorem startInstance_fault : (startInstance b k s).fault = s.fault := rfl
@[simp] theorem startInstance_input : (startInstance b k s).input = s.input := rfl
@[simp] theorem startInstance_responses : (startInstance b k s).responses = s.responses := rfl
end

section
variable (s : State)
@[simp] theorem padLanes_lanes : (padLanes s).lanes =
      xorLane (xorLane s.lanes s.wordIndex (s.saved ^^^ suffixValue s.cfgRule s.byteIndex))
        (s.cfgRateW - 1) terminator := rfl
@[simp] theorem padLanes_cfgB : (padLanes s).cfgB = s.cfgB := rfl
@[simp] theorem padLanes_cfgCapW : (padLanes s).cfgCapW = s.cfgCapW := rfl
@[simp] theorem padLanes_cfgRateW : (padLanes s).cfgRateW = s.cfgRateW := rfl
@[simp] theorem padLanes_cfgRule : (padLanes s).cfgRule = s.cfgRule := rfl
@[simp] theorem padLanes_saved : (padLanes s).saved = s.saved := rfl
@[simp] theorem padLanes_byteIndex : (padLanes s).byteIndex = s.byteIndex := rfl
@[simp] theorem padLanes_wordIndex : (padLanes s).wordIndex = s.wordIndex := rfl
@[simp] theorem padLanes_phase : (padLanes s).phase = s.phase := rfl
@[simp] theorem padLanes_fault : (padLanes s).fault = s.fault := rfl
@[simp] theorem padLanes_input : (padLanes s).input = s.input := rfl
@[simp] theorem padLanes_responses : (padLanes s).responses = s.responses := rfl
end

section
variable (s : State)
@[simp] theorem endInstance_lanes : (endInstance s).lanes = s.lanes := rfl
@[simp] theorem endInstance_cfgB : (endInstance s).cfgB = s.cfgB := rfl
@[simp] theorem endInstance_cfgCapW : (endInstance s).cfgCapW = s.cfgCapW := rfl
@[simp] theorem endInstance_cfgRateW : (endInstance s).cfgRateW = s.cfgRateW := rfl
@[simp] theorem endInstance_cfgRule : (endInstance s).cfgRule = s.cfgRule := rfl
@[simp] theorem endInstance_saved : (endInstance s).saved = s.saved := rfl
@[simp] theorem endInstance_byteIndex : (endInstance s).byteIndex = s.byteIndex := rfl
@[simp] theorem endInstance_wordIndex : (endInstance s).wordIndex = s.wordIndex := rfl
@[simp] theorem endInstance_phase : (endInstance s).phase = .finalized := rfl
@[simp] theorem endInstance_fault : (endInstance s).fault = s.fault := rfl
@[simp] theorem endInstance_input : (endInstance s).input = s.input := rfl
@[simp] theorem endInstance_responses : (endInstance s).responses = s.responses := rfl
end

section
variable (bs : List Byte) (s : State)
@[simp] theorem sendBytes_lanes : (sendBytes bs s).lanes = s.lanes := rfl
@[simp] theorem sendBytes_cfgB : (sendBytes bs s).cfgB = s.cfgB := rfl
@[simp] theorem sendBytes_cfgCapW : (sendBytes bs s).cfgCapW = s.cfgCapW := rfl
@[simp] theorem sendBytes_cfgRateW : (sendBytes bs s).cfgRateW = s.cfgRateW := rfl
@[simp] theorem sendBytes_cfgRule : (sendBytes bs s).cfgRule = s.cfgRule := rfl
@[simp] theorem sendBytes_saved : (sendBytes bs s).saved = s.saved := rfl
@[simp] theorem sendBytes_byteIndex : (sendBytes bs s).byteIndex = s.byteIndex := rfl
@[simp] theorem sendBytes_wordIndex : (sendBytes bs s).wordIndex = s.wordIndex := rfl
@[simp] theorem sendBytes_phase : (sendBytes bs s).phase = s.phase := rfl
@[simp] theorem sendBytes_fault : (sendBytes bs s).fault = s.fault := rfl
@[simp] theorem sendBytes_input : (sendBytes bs s).input = s.input ++ bs := rfl
@[simp] theorem sendBytes_responses : (sendBytes bs s).responses = s.responses := rfl
end

section
variable (s : State)
@[simp] theorem resetEvent_lanes : (resetEvent s).lanes = zeroLanes := rfl
@[simp] theorem resetEvent_cfgB : (resetEvent s).cfgB = 0 := rfl
@[simp] theorem resetEvent_cfgCapW : (resetEvent s).cfgCapW = 0 := rfl
@[simp] theorem resetEvent_cfgRateW : (resetEvent s).cfgRateW = 0 := rfl
@[simp] theorem resetEvent_cfgRule : (resetEvent s).cfgRule = .sha3 := rfl
@[simp] theorem resetEvent_saved : (resetEvent s).saved = 0 := rfl
@[simp] theorem resetEvent_byteIndex : (resetEvent s).byteIndex = 0 := rfl
@[simp] theorem resetEvent_wordIndex : (resetEvent s).wordIndex = 0 := rfl
@[simp] theorem resetEvent_phase : (resetEvent s).phase = .idle := rfl
@[simp] theorem resetEvent_fault : (resetEvent s).fault = none := rfl
@[simp] theorem resetEvent_input : (resetEvent s).input = s.input := rfl
@[simp] theorem resetEvent_responses : (resetEvent s).responses = s.responses := rfl
end

end Sys2Proof.Machine
end

