-- ==== Sys2Proof/Laws/Ops.lean ====
section
/-! SUPPORT. For each shared operation, once, everything it can do; for each meaning and for the step, the cases of its
answer. Proofs cite these instead of unfolding the operations. -/

namespace Sys2Proof.Machine

/-- The fields that belong to the configuration, the phase, the record and the channels: what absorbing data
never writes (R113). -/
structure SameFrame (s t : State) : Prop where
  cfgB : t.cfgB = s.cfgB
  cfgCapW : t.cfgCapW = s.cfgCapW
  cfgRateW : t.cfgRateW = s.cfgRateW
  cfgRule : t.cfgRule = s.cfgRule
  phase : t.phase = s.phase
  fault : t.fault = s.fault
  input : t.input = s.input
  responses : t.responses = s.responses

theorem SameFrame.rfl' (s : State) : SameFrame s s := ⟨rfl, rfl, rfl, rfl, rfl, rfl, rfl, rfl⟩

theorem SameFrame.trans' {s t u : State} (h : SameFrame s t) (g : SameFrame t u) : SameFrame s u :=
  ⟨g.cfgB.trans h.cfgB, g.cfgCapW.trans h.cfgCapW, g.cfgRateW.trans h.cfgRateW, g.cfgRule.trans h.cfgRule,
    g.phase.trans h.phase, g.fault.trans h.fault, g.input.trans h.input, g.responses.trans h.responses⟩

/-- The record keeps its first exception. -/
theorem stickyFault_cases (e : Exc) (f : Option Exc) :
    (f = none ∧ stickyFault e f = some e) ∨ ∃ g, f = some g ∧ stickyFault e f = some g := by
  cases f with
  | none => exact .inl ⟨rfl, rfl⟩
  | some g => exact .inr ⟨g, rfl, rfl⟩

@[simp] theorem stickyFault_some (e g : Exc) : stickyFault e (some g) = some g := rfl
@[simp] theorem stickyFault_none (e : Exc) : stickyFault e none = some e := rfl

theorem bufferByte_frame (s : State) (v : Byte) : SameFrame s (bufferByte s v) :=
  ⟨rfl, rfl, rfl, rfl, rfl, rfl, rfl, rfl⟩

@[simp] theorem bufferBytes_nil (s : State) : bufferBytes [] s = s := rfl

@[simp] theorem bufferBytes_cons (v : Byte) (vs : List Byte) (s : State) :
    bufferBytes (v :: vs) s = bufferBytes vs (bufferByte s v) := rfl

theorem bufferBytes_append (vs ws : List Byte) (s : State) :
    bufferBytes (vs ++ ws) s = bufferBytes ws (bufferBytes vs s) := List.foldl_append

theorem bufferBytes_frame (vs : List Byte) (s : State) : SameFrame s (bufferBytes vs s) := by
  induction vs generalizing s with
  | nil => exact .rfl' s
  | cons v vs ih => exact (bufferByte_frame s v).trans' (ih _)

/-- Buffering counts its bytes. -/
theorem bufferBytes_byteIndex (vs : List Byte) (s : State) :
    (bufferBytes vs s).byteIndex = s.byteIndex + vs.length := by
  induction vs generalizing s with
  | nil => rfl
  | cons v vs ih => simp [ih]; omega

/-- Buffering touches neither the lanes nor the lane index. -/
theorem bufferBytes_lanes (vs : List Byte) (s : State) :
    (bufferBytes vs s).lanes = s.lanes ∧ (bufferBytes vs s).wordIndex = s.wordIndex := by
  induction vs generalizing s with
  | nil => exact ⟨rfl, rfl⟩
  | cons v vs ih => exact ih (bufferByte s v)

/-- Buffering fills `SAVED` from byte `BYTE_INDEX` on with the bytes' little-endian value. -/
theorem bufferBytes_saved (vs : List Byte) (s : State) :
    (bufferBytes vs s).saved = s.saved ||| (le64 vs <<< (8 * s.byteIndex)) := by
  induction vs generalizing s with
  | nil => simp [le64]
  | cons v vs ih =>
    rw [bufferBytes_cons, ih, bufferByte_saved, bufferByte_byteIndex, le64, BitVec.shiftLeft_or_distrib,
      BitVec.or_assoc, ← BitVec.shiftLeft_add]
    congr 3
    omega

/-- FLUSH_LANE either advances the lane index or ends a block: permutes and rewinds it (R112). -/
theorem flushLane_cases (w : Lane) (s : State) :
    (s.wordIndex + 1 ≠ s.cfgRateW ∧ flushLane w s = putWord w s) ∨
      (s.wordIndex + 1 = s.cfgRateW ∧ flushLane w s = rewindWord (permuteLanes (putWord w s))) := by
  unfold flushLane
  rw [putWord_wordIndex]
  split
  · exact .inr ⟨‹_›, rfl⟩
  · exact .inl ⟨‹_›, rfl⟩

/-- FLUSH_LANE leaves the partial lane alone. -/
theorem flushLane_saved (w : Lane) (s : State) :
    (flushLane w s).saved = s.saved ∧ (flushLane w s).byteIndex = s.byteIndex := by
  obtain ⟨-, h⟩ | ⟨-, h⟩ := flushLane_cases w s <;> rw [h] <;> exact ⟨rfl, rfl⟩

theorem flushLane_frame (w : Lane) (s : State) : SameFrame s (flushLane w s) := by
  obtain ⟨-, h⟩ | ⟨-, h⟩ := flushLane_cases w s <;> rw [h] <;> exact ⟨rfl, rfl, rfl, rfl, rfl, rfl, rfl, rfl⟩

/-- FLUSH_LANE keeps the lane index below the rate (R29). -/
theorem flushLane_wordIndex_lt (w : Lane) (s : State) (h : s.wordIndex < s.cfgRateW) :
    (flushLane w s).wordIndex < (flushLane w s).cfgRateW := by
  obtain ⟨hne, e⟩ | ⟨heq, e⟩ := flushLane_cases w s <;> rw [e] <;> simp <;> omega

theorem flushGroups_frame (n : Nat) (payload : List Byte) (s : State) :
    SameFrame s (flushGroups n payload s) := by
  induction n generalizing payload s with
  | zero => exact .rfl' s
  | succ n ih => exact (flushLane_frame _ s).trans' (ih _ _)

theorem flushGroups_saved (n : Nat) (payload : List Byte) (s : State) :
    (flushGroups n payload s).saved = s.saved ∧ (flushGroups n payload s).byteIndex = s.byteIndex := by
  induction n generalizing payload s with
  | zero => exact ⟨rfl, rfl⟩
  | succ n ih =>
    have h := ih (payload.drop 8) (flushLane (memRead payload 0 8) s)
    have g := flushLane_saved (memRead payload 0 8) s
    exact ⟨h.1.trans g.1, h.2.trans g.2⟩

theorem flushGroups_wordIndex_lt (n : Nat) (payload : List Byte) (s : State) (h : s.wordIndex < s.cfgRateW) :
    (flushGroups n payload s).wordIndex < (flushGroups n payload s).cfgRateW := by
  induction n generalizing payload s with
  | zero => exact h
  | succ n ih => exact ih _ _ (flushLane_wordIndex_lt _ s h)

theorem absorbAligned_frame (payload : List Byte) (s : State) : SameFrame s (absorbAligned payload s) :=
  (flushGroups_frame _ payload s).trans' (bufferBytes_frame _ _)

theorem clearSaved_frame (s : State) : SameFrame s (clearSaved s) := ⟨rfl, rfl, rfl, rfl, rfl, rfl, rfl, rfl⟩

theorem topOff_frame (payload : List Byte) (s : State) : SameFrame s (topOff payload s) :=
  ((bufferBytes_frame payload s).trans' (clearSaved_frame _)).trans' (flushLane_frame _ _)

/-- The paths of ABSORB's data, in the order of R113: buffered whole; topped off and then aligned; aligned. -/
theorem absorbData_cases (payload : List Byte) (s : State) :
    (0 < s.byteIndex ∧ payload.length < 8 - s.byteIndex ∧ absorbData payload s = bufferBytes payload s) ∨
      (0 < s.byteIndex ∧ 8 - s.byteIndex ≤ payload.length ∧
        absorbData payload s =
          absorbAligned (payload.drop (8 - s.byteIndex)) (topOff (payload.take (8 - s.byteIndex)) s)) ∨
      (s.byteIndex = 0 ∧ absorbData payload s = absorbAligned payload s) := by
  unfold absorbData
  split
  · split
    · exact .inl ⟨‹_›, ‹_›, rfl⟩
    · exact .inr (.inl ⟨‹_›, by omega, rfl⟩)
  · exact .inr (.inr ⟨by omega, rfl⟩)

theorem absorbData_frame (payload : List Byte) (s : State) : SameFrame s (absorbData payload s) := by
  obtain ⟨-, -, h⟩ | ⟨-, -, h⟩ | ⟨-, h⟩ := absorbData_cases payload s <;> rw [h]
  · exact bufferBytes_frame payload s
  · exact (topOff_frame _ s).trans' (absorbAligned_frame _ _)
  · exact absorbAligned_frame payload s

/-- The four invariants written out (R30, R24). -/
theorem invariantsHold_iff (s : State) :
    invariantsHold s = true ↔
      s.byteIndex < 8 ∧ s.wordIndex < s.cfgRateW ∧ s.saved >>> (8 * s.byteIndex) = 0 ∧
        legalConfig s.cfgB s.cfgCapW s.cfgRateW = true := by
  simp [invariantsHold, and_assoc]

theorem legalConfig_iff (b c r : Nat) :
    legalConfig b c r = true ↔
      (b = 256 ∧ c = 8 ∧ r = 17) ∨ (b = 384 ∧ c = 12 ∧ r = 13) ∨ (b = 512 ∧ c = 16 ∧ r = 9) := by
  simp [legalConfig, and_assoc, or_assoc]

theorem legalWidth_iff (b : Nat) : legalWidth b = true ↔ b = 256 ∨ b = 384 ∨ b = 512 := by
  simp [legalWidth, or_assoc]

/-- A lane of `xorLane`. -/
theorem xorLane_getElem (A : Lanes) (i : Nat) (w : Lane) (j : Nat) (hj : j < 25) :
    (xorLane A i w)[j] = if i = j then A[j] ^^^ w else A[j] := by
  unfold xorLane
  split
  · rw [Vector.getElem_set]
    split
    · next h => subst h; rfl
    · rfl
  · rw [if_neg (by omega)]

/-- What NEW answers. -/
theorem execNew_cases (b : Nat) (k : PadRule) (s : State) :
    (legalWidth b = true ∧ exec (.new b k) s = .next (respond statusOk [] (startInstance b k s))) ∨
      (legalWidth b = false ∧ exec (.new b k) s = .next (takeException .invalidConfiguration s)) := by
  cases h : legalWidth b
  · exact .inr ⟨rfl, by simp [exec, execNew, h]⟩
  · exact .inl ⟨rfl, by simp [exec, execNew, h]⟩

/-- What ABSORB answers. -/
theorem execAbsorb_cases (payload : List Byte) (s : State) :
    (s.phase ≠ .absorbing ∧ exec (.absorb payload) s = .next (takeException .invalidState s)) ∨
      (s.phase = .absorbing ∧ invariantsHold s = false ∧
        exec (.absorb payload) s = .next (takeException .invariantViolation s)) ∨
      (s.phase = .absorbing ∧ invariantsHold s = true ∧
        exec (.absorb payload) s = .next (respond statusOk [] (absorbData payload s))) := by
  by_cases hp : s.phase = .absorbing
  · cases hi : invariantsHold s
    · exact .inr (.inl ⟨hp, rfl, by simp [exec, execAbsorb, hp, hi]⟩)
    · exact .inr (.inr ⟨hp, rfl, by simp [exec, execAbsorb, hp, hi]⟩)
  · exact .inl ⟨hp, by simp [exec, execAbsorb, hp]⟩

/-- What FINALIZE answers. -/
theorem execFinalize_cases (s : State) :
    (s.phase ≠ .absorbing ∧ exec .finalize s = .next (takeException .invalidState s)) ∨
      (s.phase = .absorbing ∧ invariantsHold s = false ∧
        exec .finalize s = .next (takeException .invariantViolation s)) ∨
      (s.phase = .absorbing ∧ invariantsHold s = true ∧
        exec .finalize s =
          .next (respond statusOk (outImage (permuteLanes (padLanes s)).lanes)
            (endInstance (permuteLanes (padLanes s))))) := by
  by_cases hp : s.phase = .absorbing
  · cases hi : invariantsHold s
    · exact .inr (.inl ⟨hp, rfl, by simp [exec, execFinalize, hp, hi]⟩)
    · exact .inr (.inr ⟨hp, rfl, by simp [exec, execFinalize, hp, hi]⟩)
  · exact .inl ⟨hp, by simp [exec, execFinalize, hp]⟩

/-- Everything a step can do. -/
theorem step_cases (s : State) :
    (decode s.input = .incomplete ∧ step s = .next s) ∨
      (∃ reason rest, decode s.input = .illegal reason rest ∧
        step s = .next (takeException .invalidCommand (setInput rest s))) ∨
      (∃ i rest, decode s.input = .record i rest ∧ step s = exec i (setInput rest s)) := by
  cases h : decode s.input with
  | incomplete => exact .inl ⟨rfl, by simp [step, fetch, h, awaitRecord]⟩
  | illegal reason rest => exact .inr (.inl ⟨reason, rest, rfl, by simp [step, fetch, h, rejectWord]⟩)
  | record i rest => exact .inr (.inr ⟨i, rest, rfl, by simp [step, fetch, h]⟩)

end Sys2Proof.Machine
end

