-- ==== Sys2Proof/Laws/Counted.lean ====
section
/-! SUPPORT. What the counted operations do: the state of each is that of the plain one, and the counter moves by one
where FLUSH_LANE wraps. -/

namespace Sys2Proof.Machine

/-- FLUSH_LANE on a counted state either advances the lane index, or permutes and counts one (R112). -/
theorem flushLaneCounted_cases (w : Lane) (c : State × Nat) :
    (c.1.wordIndex + 1 ≠ c.1.cfgRateW ∧ flushLaneCounted w c = (putWord w c.1, c.2)) ∨
      (c.1.wordIndex + 1 = c.1.cfgRateW ∧
        flushLaneCounted w c = (rewindWord (permuteLanes (putWord w c.1)), c.2 + 1)) := by
  unfold flushLaneCounted
  rw [putWord_wordIndex]
  split
  · exact .inr ⟨‹_›, rfl⟩
  · exact .inl ⟨‹_›, rfl⟩

@[simp] theorem flushLaneCounted_fst (w : Lane) (c : State × Nat) :
    (flushLaneCounted w c).1 = flushLane w c.1 := by
  obtain ⟨h, e⟩ | ⟨h, e⟩ := flushLaneCounted_cases w c <;>
    obtain ⟨g, f⟩ | ⟨g, f⟩ := flushLane_cases w c.1
  · rw [e, f]
  · exact absurd g h
  · exact absurd h g
  · rw [e, f]

@[simp] theorem flushGroupsCounted_fst (n : Nat) (payload : List Byte) (c : State × Nat) :
    (flushGroupsCounted n payload c).1 = flushGroups n payload c.1 := by
  induction n generalizing payload c with
  | zero => rfl
  | succ n ih => rw [flushGroupsCounted, ih, flushLaneCounted_fst]; rfl

@[simp] theorem bufferCounted_fst (vs : List Byte) (c : State × Nat) :
    (bufferCounted vs c).1 = bufferBytes vs c.1 := rfl

@[simp] theorem bufferCounted_snd (vs : List Byte) (c : State × Nat) : (bufferCounted vs c).2 = c.2 := rfl

@[simp] theorem alignedCounted_fst (payload : List Byte) (c : State × Nat) :
    (alignedCounted payload c).1 = absorbAligned payload c.1 := by
  simp [alignedCounted, absorbAligned]

@[simp] theorem topOffCounted_fst (payload : List Byte) (c : State × Nat) :
    (topOffCounted payload c).1 = topOff payload c.1 := by
  simp [topOffCounted, topOff]

end Sys2Proof.Machine
end

