-- ==== Sys2Proof/Laws/Encoding.lean ====
section
/-! SUPPORT. Small facts about header words and their bytes. -/

namespace Sys2Proof

@[simp] theorem headerBytes_length (hdr : Word32) : (headerBytes hdr).length = 4 := rfl

/-- A header word is the word of its own bytes (R82). -/
theorem headerOfBytes_headerBytes (hdr : Word32) :
    headerOfBytes (hdr.extractLsb' 0 8) (hdr.extractLsb' 8 8) (hdr.extractLsb' 16 8) (hdr.extractLsb' 24 8)
      = hdr := by
  apply BitVec.eq_of_getLsbD_eq
  intro i hi
  simp only [headerOfBytes, BitVec.getLsbD_append, BitVec.getLsbD_extractLsb']
  split_ifs with h0 h1 h2
  · simp [h0]
  · simp only [h1, decide_true, Bool.true_and]
    congr 1
    omega
  · simp only [h2, decide_true, Bool.true_and]
    congr 1
    omega
  · have h3 : i - 8 - 8 - 8 < 8 := by omega
    simp only [h3, decide_true, Bool.true_and]
    congr 1
    omega

@[simp] theorem encode_length (i : Instr) : (encode i).length = 4 + (payloadOf i).length := by
  simp [encode]

/-- Decoding after the four bytes of a header. -/
theorem decode_headerBytes (hdr : Word32) (rest : List Byte) :
    decode (headerBytes hdr ++ rest) = decodeBody hdr rest := by
  show decodeBody (headerOfBytes _ _ _ _) rest = _
  rw [headerOfBytes_headerBytes]

/-- The record length is told by the header alone (R71). -/
theorem recordLength_cases (hdr : Word32) :
    (∃ len, decodeHeader hdr = .absorb len ∧ recordLength hdr = 4 + len) ∨ recordLength hdr = 4 := by
  unfold recordLength
  cases h : decodeHeader hdr <;> simp

end Sys2Proof
end

