-- ==== Sys2Proof/Laws/PerInstr.lean ====
section
/-! SUPPORT. The per-instruction family RecordLength: a record is one header word and the payload bytes, and only
ABSORB has a payload (R71). -/

/-- The record of a command has `4 + len` bytes for ABSORB and 4 for the others (R71). -/
def Sys2Proof.Laws.RecordLength.Statement (i : Sys2Proof.Instr) : Prop :=
  (Sys2Proof.encode i).length =
    match i with
    | .new _ _ => 4
    | .absorb payload => 4 + payload.length
    | .finalize => 4

theorem Sys2Proof.Laws.RecordLength.new (b : Nat) (k : Sys2Proof.PadRule) :
    Sys2Proof.Laws.RecordLength.Statement (.new b k) := rfl

theorem Sys2Proof.Laws.RecordLength.absorb (payload : List Sys2Proof.Byte) :
    Sys2Proof.Laws.RecordLength.Statement (.absorb payload) := Sys2Proof.encode_length _

theorem Sys2Proof.Laws.RecordLength.finalize : Sys2Proof.Laws.RecordLength.Statement .finalize := rfl
end

