-- ==== Sys2Proof/Tests/Slice0.lean ====
section
/-! SUPPORT. The model's own tests: expected values from spec/95_test_vectors.md, the well-formedness smoke test, and
for each statement with hypotheses a concrete case that meets them. -/

namespace Sys2Proof.Tests

open Sys2Proof.Machine

/-! ## Helpers -/

/-- The next state of an answer. -/
def answered (o : Host.Outcome State Fault Refusal) : Option State :=
  match o with
  | .next t => some t
  | .fault _ => none
  | .refused _ => none

/-- The test state `A` of 95_test_vectors.md section 2: `A[i] = i + 1`. -/
def countingLanes : Lanes := Vector.ofFn fun i : Fin 25 => BitVec.ofNat 64 (i.val + 1)

/-- A fresh instance. -/
def fresh (b : Nat) (k : PadRule) : State := startInstance b k State.reset

/-- An instance with the given bookkeeping. -/
def midway (b : Nat) (words bytes : Nat) (pending : Lane) : State :=
  { fresh b .sha3 with wordIndex := words, byteIndex := bytes, saved := pending }

/-- 135 bytes 0xa3 absorbed at B = 256 (V10): the next byte is the last of the block. -/
def lastByteOfBlock : State :=
  { midway 256 16 7 0x00A3A3A3A3A3A3A3 with
    lanes := Vector.ofFn fun i : Fin 25 => if i.val < 16 then 0xA3A3A3A3A3A3A3A3 else 0 }

/-- An ended instance. -/
def ended : State := endInstance (fresh 256 .sha3)

/-- A state that breaks R30: a set byte of `SAVED` at `BYTE_INDEX`. -/
def brokenState : State := midway 256 0 1 0x6161

/-- The two hypotheses that the statements about an instance share. -/
abbrev IsInstance (s : State) : Prop := s.phase = .absorbing ∧ invariantsHold s = true

/-! ## Well-formedness and decoding -/

theorem test_wellFormed_refuses_wide_width : wellFormed (.new 65536 .sha3) = false := by decide

theorem test_wellFormed_refuses_long_payload :
    wellFormed (.absorb (List.replicate 16777216 0)) = false := by
  simp only [wellFormed, List.length_replicate]
  decide

theorem test_wellFormed_boundaries :
    wellFormed (.new 65535 .keccak) = true ∧ wellFormed (.absorb (List.replicate 16777215 0)) = true ∧
      wellFormed .finalize = true := by
  simp only [wellFormed, List.length_replicate]
  decide

/-- R72: `0000 0001 0000 000k bbbb bbbb bbbb bbbb` with k = 1, b = 384. -/
theorem test_decode_new :
    decodeHeader 0b00000001000000010000000110000000#32 = .new 384 .keccak := by decide

/-- R73: `0000 0010 llll llll llll llll llll llll` with len = 2^23 + 2^8 + 3. -/
theorem test_decode_absorb :
    decodeHeader 0b00000010100000000000000100000011#32 = .absorb 8388867 := by decide

/-- R74: the one word of FINALIZE. -/
theorem test_decode_finalize :
    decodeHeader 0b00000011000000000000000000000000#32 = .finalize := by decide

/-- V12: a reserved bit in NEW, a reserved bit in FINALIZE, an undefined opcode. -/
theorem test_decode_illegal :
    decodeHeader 0x01800100 = .illegal .reservedNew ∧ decodeHeader 0x03000001 = .illegal .reservedFinalize ∧
      decodeHeader 0x04000000 = .illegal .undefinedOpcode := by decide

/-- R82: `00 01 00 01` is `NEW 256, SHA3` and `03 00 00 02 61 62 63` is `ABSORB "abc"`. -/
theorem test_encode_bytes :
    encode (.new 256 .sha3) = [0x00, 0x01, 0x00, 0x01] ∧
      encode (.absorb [0x61, 0x62, 0x63]) = [0x03, 0x00, 0x00, 0x02, 0x61, 0x62, 0x63] ∧
      encode .finalize = [0x00, 0x00, 0x00, 0x03] := by decide

theorem test_decode_incomplete : decode [0x03, 0x00, 0x00, 0x02, 0x61, 0x62] = .incomplete := by decide

theorem test_tableWord :
    decodeTableWord 32 0x01010180 = some (.new 384 .keccak) ∧
      decodeTableWord 32 0x02000003 = some (.absorb [0, 0, 0]) ∧
      decodeTableWord 32 0x03000000 = some .finalize ∧ decodeTableWord 32 0x05000000 = none := by decide

/-! ## The permutation's step maps -/

/-- V2. -/
theorem test_rotl64 :
    rotl64 0x0123456789ABCDEF 63 = 0x8091A2B3C4D5E6F7 ∧ rotl64 0x8000000000000001 62 = 0x6000000000000000 := by
  decide

/-- R34: where the two columns of its table meet, and the equalities it points out. -/
theorem test_roundConstants :
    roundConstants[11] = 0x8000000A ∧ roundConstants[12] = 0x8000808B ∧ roundConstants[23] = 0x8000000080008008 ∧
      roundConstants[6] = roundConstants[20] ∧ roundConstants[5] = roundConstants[22] := by decide +kernel

/-- V3, lanes 1 and 24 of THETA(A). -/
theorem test_theta : (theta countingLanes)[1] = 0x0D ∧ (theta countingLanes)[24] = 0x03 := by decide +kernel

/-- V4, lanes 1 and 9 of RHO_PI(A). -/
theorem test_rhoPi :
    (rhoPi countingLanes)[1] = 0x0000700000000000 ∧ (rhoPi countingLanes)[9] = 0xE000000000000002 := by
  decide +kernel

/-- V5, lanes 4 and 23 of CHI(A). -/
theorem test_chi : (chi countingLanes)[4] = 0x07 ∧ (chi countingLanes)[23] = 0x1C := by decide +kernel

/-- V7, lane 0 after three rounds from zero. -/
theorem test_three_rounds :
    (keccakRound (keccakRound (keccakRound zeroLanes 0) 1) 2)[0] = 0x8030500001E0840C := by decide +kernel

/-! ## The commands -/

/-- V8: `NEW 512, KECCAK`. -/
theorem test_new :
    (answered (exec (.new 512 .keccak) lastByteOfBlock)).map
      (fun t => (t.cfgCapW, t.cfgRateW, t.cfgRule, t.saved, t.lanes[15])) = some (16, 9, .keccak, 0, 0) := by decide +kernel

/-- V13: `NEW 100, KECCAK` in an instance answers status 1 and leaves it. -/
theorem test_new_illegal :
    (answered (exec (.new 100 .keccak) (midway 256 0 1 0x61))).map
      (fun t => (t.responses.map Response.status, t.fault, t.saved, t.byteIndex, t.cfgB)) =
      some ([1], some .invalidConfiguration, 0x61, 1, 256) := by decide +kernel

/-- V9 case f: twenty bytes 10..23 after five pending: top off, two groups, one byte left. -/
theorem test_absorb_all_steps :
    (answered (exec (.absorb ((List.range 20).map fun n => BitVec.ofNat 8 (n + 16)))
      (midway 256 0 5 0x000000A5A4A3A2A1))).map
      (fun t => (t.lanes[0], t.lanes[1], t.lanes[2], t.saved, t.byteIndex, t.wordIndex)) =
      some (0x121110A5A4A3A2A1, 0x1A19181716151413, 0x2221201F1E1D1C1B, 0x23, 1, 3) := by decide +kernel

/-- V9 case g: the ninth word at B = 512 ends the block. -/
theorem test_absorb_wraps :
    (answered (exec (.absorb [1, 0, 0, 0, 0, 0, 0, 0]) (midway 512 8 0 0))).map
      (fun t => (t.wordIndex, t.byteIndex)) = some (0, 0) := by decide +kernel

/-- P1: FINALIZE after `NEW 256, SHA3; ABSORB "abc"`, the first eight digest bytes. -/
theorem test_finalize_abc :
    (answered (exec .finalize (midway 256 0 3 0x636261))).map (fun t => (lastData t).take 8) =
      some [0x3a, 0x98, 0x5d, 0xa7, 0x4f, 0xe2, 0x25, 0xb2] := by decide +kernel

/-- P4: suffix and terminator in one byte. -/
theorem test_finalize_same_byte : (padLanes lastByteOfBlock).lanes[16] = 0x86A3A3A3A3A3A3A3 := by decide +kernel

/-- V13: the word 04000000 with `FAULT` = 1 answers status 3 and keeps the first fault. -/
theorem test_illegal_word :
    (answered (step (State.withFetchWord (recordFault .invalidConfiguration State.reset) 32 0x04000000))).map
      (fun t => (t.responses, t.fault, t.input)) =
      some ([⟨3, []⟩], some .invalidConfiguration, []) := by decide +kernel

/-- The first step after reset runs the record the host has sent. -/
theorem test_step_from_reset :
    (answered (step (State.reset.withFetchWord 32 0x01000100))).map (fun t => (t.phase, t.cfgRateW, t.responses)) =
      some (.absorbing, 17, [⟨0, []⟩]) := by decide +kernel

/-- R80: HASH of `x"6162"` expands to three commands, whose records follow one another. -/
theorem test_assemble_hash :
    (assemble ['H', 'A', 'S', 'H', ' ', 'x', quoteChar, '6', '1', '6', '2', quoteChar, ',', ' ', '2', '5', '6', ',',
        ' ', 'S', 'H', 'A', '3', ' ', ';', ' ', 'c']).map assembledBytes =
      some [0x00, 0x01, 0x00, 0x01, 0x02, 0x00, 0x00, 0x02, 0x61, 0x62, 0x00, 0x00, 0x00, 0x03] := by decide +kernel

/-- R81: `3 * x"a3"` is three bytes. -/
theorem test_bytes_repeated :
    bytesLiteral [.word ['3'], .star, .word ['x'], .text ['a', '3']] = some [0xa3, 0xa3, 0xa3] := by decide

/-! ## Witnesses: the hypotheses of each statement can be met, at the boundary of each clause -/

theorem witness_DecodeOfEncodeIsIdentity : wellFormed (.new 65535 .keccak) = true := by decide

theorem witness_RecordBytesAreTheEncoding :
    decode [0x01, 0x00, 0x00, 0x02, 0x61, 0x07] = .record (.absorb [0x61]) [0x07] := by decide

theorem witness_NewWordFields :
    ((0x01020100 : Word32).toNat / 2 ^ 24 = 1 ∧ (0x01020100 : Word32).toNat / 2 ^ 17 ≠ 128) ∧
      decodeHeader 0x01000101 = .new 257 .sha3 ∧
      (0x01000101 : Word32) ∉ [0x01000100, 0x01000180, 0x01000200, 0x01010100, 0x01010180, 0x01010200] := by
  decide

theorem witness_AbsorbAndFinalizeWordFields :
    decodeHeader 0x02000000 = .absorb 0 ∧ decodeHeader 0x02FFFFFF = .absorb 16777215 ∧
      decodeHeader 0x03000000 = .finalize ∧
      (0x03000001 : Word32).toNat / 2 ^ 24 = 3 ∧ (0x03000001 : Word32).toNat ≠ 0x03000000 := by decide

theorem witness_IllegalWordsRaiseInvalidCommand :
    illegalWord 0x04000000 = true ∧ illegalWord 0x01020100 = true ∧ illegalWord 0x03000001 = true ∧
      illegalWord 0x0101FFFF = false ∧ (State.reset.withFetchWord 32 0x04000000).input = headerBytes 0x04000000 ++ [] := by
  decide

theorem witness_IncompleteRecordTakesNoStep :
    decode State.reset.input = .incomplete ∧ decode [0x01, 0x00, 0x00, 0x02] = .incomplete := by decide

theorem witness_StepRunsTheDecodedCommand :
    decode (State.reset.withFetchWord 32 0x03000000).input = .record .finalize [] := by decide

theorem witness_CommandStreamRunsInOrder :
    (∀ i ∈ [Instr.new 256 .sha3, .finalize], wellFormed i = true) ∧
      (setInput ([Instr.new 256 .sha3, .finalize].flatMap encode ++ [0x07]) State.reset).input =
        [Instr.new 256 .sha3, .finalize].flatMap encode ++ [0x07] := by decide

theorem witness_EveryRecordGetsOneResponse :
    decode (State.reset.withFetchWord 32 0x03000000).input ≠ .incomplete ∧
      decode (State.reset.withFetchWord 32 0x00000000).input ≠ .incomplete ∧
      decode (State.withFetchWord (fresh 256 .sha3) 32 0x03000000).input = .record .finalize [] := by decide +kernel

theorem witness_NewStartsAFreshInstance : (224 : Nat) ≠ 256 ∧ (224 : Nat) ≠ 384 ∧ (224 : Nat) ≠ 512 := by decide

/-- An instance at the start, at its last byte, and one word before the end of a block: these meet the hypotheses of
AbsorbIsByteAtATime, AbsorbOfNoBytes, AbsorbAdvancesThePosition, AbsorbPermutationCount and
PaddingRulesGiveDifferentImages, for every payload. -/
theorem witness_instances :
    IsInstance (fresh 512 .keccak) ∧ IsInstance lastByteOfBlock ∧ IsInstance (midway 512 8 0 0) := by decide +kernel

/-- The widths of NewForgetsThePast, StateAfterAbsorbingInClosedForm, PermutationCountOfAnInstance,
StreamingEquivalence, FinalizeAbsorbsThePaddedMessage, HashComputesTheDigest and DigestIsTheFirstLanes; 224 is in no clause but that of an
unsupported width. -/
theorem witness_widths :
    ((512 : Nat) = 256 ∨ (512 : Nat) = 384 ∨ (512 : Nat) = 512) ∧
      ¬ ((224 : Nat) = 256 ∨ (224 : Nat) = 384 ∨ (224 : Nat) = 512) := by decide

theorem witness_RotationMovesBits : (1 ≤ 1 ∧ 1 ≤ 63) ∧ (1 ≤ 63 ∧ 63 ≤ 63) ∧ (0 < 64 ∧ 63 < 64) := by decide

/-- The corners of the column and row ranges of ThetaRule and ChiRule, and of the lanes of IotaRule and
TraversalTables. -/
theorem witness_lanes : (0 < 5 ∧ 4 < 5) ∧ (1 < 25 ∧ 24 < 25 ∧ 0 < 1) ∧ (24 : Fin 25) ≠ 0 := by decide

theorem witness_FlushLaneRule :
    IsInstance (midway 512 8 0 0) ∧ IsInstance (fresh 256 .sha3) ∧
      (midway 512 8 0 0).wordIndex + 1 = (midway 512 8 0 0).cfgRateW ∧
      (fresh 256 .sha3).wordIndex + 1 ≠ (fresh 256 .sha3).cfgRateW := by decide +kernel

theorem witness_InstanceCommandsNeedAbsorbing :
    State.reset.phase ≠ .absorbing ∧ ended.phase ≠ .absorbing ∧ wellFormed (.absorb [0x61]) = true ∧
      (setInput (encode (.absorb [0x61]) ++ [0x07]) ended).input = encode (.absorb [0x61]) ++ [0x07] := by
  decide +kernel

/-- The clauses meet at a chunk of `8 - BYTE_INDEX` bytes: with BYTE_INDEX = 7 the empty chunk is the longest that is
buffered and one byte completes the lane; with BYTE_INDEX = 0 eight bytes do. -/
theorem witness_AbsorbFollowsItsSteps :
    IsInstance lastByteOfBlock ∧ IsInstance (fresh 256 .sha3) ∧
      (([] : List Byte).length < 8 - lastByteOfBlock.byteIndex) ∧
      ([0x61] : List Byte) = [0x61] ++ [] ∧ ([0x61] : List Byte).length = 8 - lastByteOfBlock.byteIndex ∧
      ([1, 2, 3, 4, 5, 6, 7, 8] : List Byte).length = 8 - (fresh 256 .sha3).byteIndex := by decide +kernel

theorem witness_AbsorbFrame :
    (answered (exec (.absorb [0x61]) (fresh 256 .sha3))).isSome = true ∧
      (answered (exec (.absorb [0x61]) brokenState)).isSome = true ∧ invariantsHold brokenState = false := by
  decide +kernel

theorem witness_AbsorbWritesOnlyItsRateLanes :
    8 * (midway 256 16 0 0).wordIndex + (midway 256 16 0 0).byteIndex + ([1, 2, 3, 4, 5, 6, 7] : List Byte).length <
        8 * (midway 256 16 0 0).cfgRateW ∧ IsInstance (midway 256 16 0 0) := by decide +kernel

theorem witness_MessageBytesLandLittleEndian :
    IsInstance (fresh 512 .sha3) ∧ (fresh 512 .sha3).wordIndex = 0 ∧ (fresh 512 .sha3).byteIndex = 0 ∧
      (List.replicate 71 (0x61 : Byte)).length < 8 * (fresh 512 .sha3).cfgRateW := by decide +kernel

theorem witness_StreamingEquivalence :
    ([[0x61], [], [0x62, 0x63]] : List (List Byte)).flatten = [[0x61, 0x62, 0x63]].flatten := by decide

theorem witness_FinalizePadsPermutesAndAnswers :
    ended.phase ≠ .absorbing ∧ IsInstance (fresh 384 .keccak) := by decide +kernel

theorem witness_SuffixAndTerminatorCompose :
    IsInstance lastByteOfBlock ∧ IsInstance (fresh 256 .sha3) ∧
      lastByteOfBlock.wordIndex + 1 = lastByteOfBlock.cfgRateW ∧ lastByteOfBlock.byteIndex = 7 ∧
      lastByteOfBlock.wordIndex < 25 ∧ lastByteOfBlock.cfgRateW - 1 < 25 ∧
      (fresh 256 .sha3).wordIndex + 1 ≠ (fresh 256 .sha3).cfgRateW := by decide +kernel

theorem witness_FinalizeFrame : (answered (exec .finalize (fresh 256 .sha3))).isSome = true := by decide +kernel

theorem witness_OutputImageReads :
    ended.phase = .finalized ∧ (199 : Nat) < 200 ∧ (200 : Nat) ≤ 200 ∧ State.reset.phase ≠ .finalized := by
  decide +kernel

theorem witness_OutputStaysUntilNew :
    ended.phase = .finalized ∧ Event.engineStep ≠ .assertReset ∧
      decode (State.withFetchWord ended 32 0x010000E0).input = .record (.new 224 .sha3) [] := by decide +kernel

theorem witness_ExceptionChangesOnlyTheRecord :
    (answered (exec .finalize State.reset)).map State.responses = some (State.reset.responses ++ [⟨2, []⟩]) ∧
      (2 : Byte) ≠ 0 := by decide +kernel

theorem witness_FaultRecordIsSticky :
    (recordFault .invalidState State.reset).fault = some .invalidState ∧ Event.engineStep ≠ .assertReset ∧
      State.reset.fault = none ∧
      (onEvent .engineStep (State.reset.withFetchWord 32 0x03000000)).fault = some .invalidState := by decide +kernel

/-- Each of the four ways to break an invariant, at its boundary. -/
theorem witness_BrokenInvariantIsReported :
    brokenState.phase = .absorbing ∧ (brokenState.byteIndex ≤ 1 ∧ laneByte brokenState.saved 1 ≠ 0) ∧
      8 ≤ (midway 256 0 8 0).byteIndex ∧ (midway 256 17 0 0).cfgRateW ≤ (midway 256 17 0 0).wordIndex ∧
      ¬ ((fresh 224 .sha3).cfgB = 256 ∨ (fresh 224 .sha3).cfgB = 384 ∨ (fresh 224 .sha3).cfgB = 512) := by
  decide +kernel

theorem witness_ConfigurationIsWrittenByNewAlone :
    (answered (exec (.new 256 .keccak) State.reset)).isSome = true := by decide +kernel

theorem witness_InvariantsAreKept : State.reset.Inv ∧ lastByteOfBlock.Inv ∧ ended.Inv := by decide +kernel

theorem witness_InvariantViolationIsUnreachable : State.reset.Reachable := ⟨[], rfl⟩

theorem witness_InvariantViolationStaysUnreported :
    State.reset.Inv ∧ State.reset.fault ≠ some .invariantViolation ∧ State.reset.responses = [] ∧
      (takeException .invalidState lastByteOfBlock).Inv ∧
      (takeException .invalidState lastByteOfBlock).fault ≠ some .invariantViolation ∧
      ∀ r ∈ (takeException .invalidState lastByteOfBlock).responses, r.status ≠ 4 := by decide +kernel

theorem witness_ResetAloneClearsFaultAndInstance :
    (recordFault .invalidState ended).fault ≠ none ∧ ended.phase ≠ .idle ∧
      (onEvent .assertReset (recordFault .invalidState ended)).fault = none ∧
      (onEvent .assertReset ended).phase = .idle := by decide +kernel

theorem witness_ConfigurationTable : legalWidth 512 = true := by decide

theorem witness_EnginesAreIndependent :
    (∀ p ∈ [((1 : Nat), Event.engineStep), (0, .assertReset)], p.1 < (systemReset 2).engines.length) ∧
      (systemReset 2).engines[1]? = some State.reset := by decide +kernel

theorem witness_NewSugarExpands : ruleName ['K', 'E', 'C', 'C', 'A', 'K'] = some .keccak := by decide

end Sys2Proof.Tests
end

