-- ==== Sys2Proof/Proofs/Decoder.lean ====
section
/-! PROOFS. For the decoder, layer by layer, once, everything it can answer; from it, that a command it reads is
well-formed. -/

namespace Sys2Proof

/-- What a header word says, with the fields that decide it (R71 to R74, R76). -/
theorem decodeHeader_cases (hdr : Word32) :
    (hdr.extractLsb' 24 8 = 0x01#8 ∧ hdr.extractLsb' 17 7 = 0#7 ∧
      decodeHeader hdr = .new (hdr.extractLsb' 0 16).toNat (ruleOfBit (hdr.getLsbD 16))) ∨
    (hdr.extractLsb' 24 8 = 0x01#8 ∧ hdr.extractLsb' 17 7 ≠ 0#7 ∧ decodeHeader hdr = .illegal .reservedNew) ∨
    (hdr.extractLsb' 24 8 = 0x02#8 ∧ decodeHeader hdr = .absorb (hdr.extractLsb' 0 24).toNat) ∨
    (hdr.extractLsb' 24 8 = 0x03#8 ∧ hdr.extractLsb' 0 24 = 0#24 ∧ decodeHeader hdr = .finalize) ∨
    (hdr.extractLsb' 24 8 = 0x03#8 ∧ hdr.extractLsb' 0 24 ≠ 0#24 ∧
      decodeHeader hdr = .illegal .reservedFinalize) ∨
    (hdr.extractLsb' 24 8 ≠ 0x01#8 ∧ hdr.extractLsb' 24 8 ≠ 0x02#8 ∧ hdr.extractLsb' 24 8 ≠ 0x03#8 ∧
      decodeHeader hdr = .illegal .undefinedOpcode) := by
  by_cases h1 : hdr.extractLsb' 24 8 = 0x01#8
  · by_cases hz : hdr.extractLsb' 17 7 = 0#7 <;> simp [decodeHeader, h1, hz]
  · by_cases h2 : hdr.extractLsb' 24 8 = 0x02#8
    · simp [decodeHeader, h2]
    · by_cases h3 : hdr.extractLsb' 24 8 = 0x03#8
      · by_cases hz : hdr.extractLsb' 0 24 = 0#24 <;> simp [decodeHeader, h3, hz]
      · simp [decodeHeader, h1, h2, h3]

/-- The width operand is a 16-bit number (R72). -/
theorem width_le_of_decodeHeader_new {hdr : Word32} {b : Nat} {k : PadRule} (h : decodeHeader hdr = .new b k) :
    b ≤ 65535 := by
  have hlt := (hdr.extractLsb' 0 16).isLt
  obtain ⟨-, -, e⟩ | ⟨-, -, e⟩ | ⟨-, e⟩ | ⟨-, -, e⟩ | ⟨-, -, e⟩ | ⟨-, -, -, e⟩ := decodeHeader_cases hdr <;>
    cases h.symm.trans e
  omega

/-- The length operand is a 24-bit number (R73), so at most `MAXLEN` (R8). -/
theorem length_le_of_decodeHeader_absorb {hdr : Word32} {len : Nat} (h : decodeHeader hdr = .absorb len) :
    len ≤ Config.maxLen := by
  have hlt := (hdr.extractLsb' 0 24).isLt
  obtain ⟨-, -, e⟩ | ⟨-, -, e⟩ | ⟨-, e⟩ | ⟨-, -, e⟩ | ⟨-, -, e⟩ | ⟨-, -, -, e⟩ := decodeHeader_cases hdr <;>
    cases h.symm.trans e
  exact Nat.le_of_lt_succ hlt

/-- Where a header and the bytes after it decode to a command, which header it is and what is consumed (R71). -/
theorem decodeBody_record_cases {hdr : Word32} {tail rest : List Byte} {i : Instr}
    (h : decodeBody hdr tail = .record i rest) :
    (∃ b k, decodeHeader hdr = .new b k ∧ i = .new b k ∧ rest = tail) ∨
    (∃ len, decodeHeader hdr = .absorb len ∧ len ≤ tail.length ∧ i = .absorb (tail.take len) ∧
      rest = tail.drop len) ∨
    (decodeHeader hdr = .finalize ∧ i = .finalize ∧ rest = tail) := by
  unfold decodeBody at h
  cases e : decodeHeader hdr with
  | new b k =>
    rw [e] at h
    cases h
    exact .inl ⟨b, k, rfl, rfl, rfl⟩
  | absorb len =>
    simp only [e] at h
    split at h
    · cases h
      exact .inr (.inl ⟨len, rfl, ‹_›, rfl, rfl⟩)
    · cases h
  | finalize =>
    rw [e] at h
    cases h
    exact .inr (.inr ⟨rfl, rfl, rfl⟩)
  | illegal reason =>
    rw [e] at h
    cases h

/-- A complete record starts with the four bytes of its header (R71, R82). -/
theorem exists_header_of_decode_record {bytes rest : List Byte} {i : Instr} (h : decode bytes = .record i rest) :
    ∃ b0 b1 b2 b3 tail, bytes = b0 :: b1 :: b2 :: b3 :: tail ∧
      decodeBody (headerOfBytes b0 b1 b2 b3) tail = .record i rest := by
  unfold decode at h
  split at h
  · exact ⟨_, _, _, _, _, rfl, h⟩
  · cases h

/-- The decoder reads only commands that a record can carry. -/
theorem wellFormed_of_decode_record {bytes rest : List Byte} {i : Instr} (h : decode bytes = .record i rest) :
    wellFormed i = true := by
  obtain ⟨b0, b1, b2, b3, tail, -, hbody⟩ := exists_header_of_decode_record h
  obtain ⟨b, k, hnew, rfl, -⟩ | ⟨len, habs, -, rfl, -⟩ | ⟨-, rfl, -⟩ := decodeBody_record_cases hbody
  · simpa [wellFormed] using width_le_of_decodeHeader_new hnew
  · have hlen := length_le_of_decodeHeader_absorb habs
    simp only [wellFormed, List.length_take, decide_eq_true_eq]
    omega
  · rfl

end Sys2Proof
end

