-- ==== Sys2Proof/Proofs/Scope.lean ====
section
/-! PROOFS. The statements of 00_scope.md: the step as one whole command (R13), the table of configurations (R6). -/

namespace Sys2Proof.Machine

/-- A complete record in the channel leaves the step one case: to run its command. -/
theorem step_of_decode_record {s : State} {i : Instr} {rest : List Byte} (h : decode s.input = .record i rest) :
    step s = exec i (setInput rest s) := by
  obtain ⟨e, -⟩ | ⟨_, _, e, -⟩ | ⟨_, _, e, hstep⟩ := step_cases s <;> cases h.symm.trans e
  exact hstep

/-- Settles O8: the step's case for a record, and the decoder's bounds on the operands it reads. -/
theorem stepRunsTheDecodedCommand : Obligations.StepRunsTheDecodedCommand :=
  fun _ _ _ h => ⟨step_of_decode_record h, wellFormed_of_decode_record h⟩

/-- R6 for a legal width: the digest fits the rate and `2*B/64` is exact. -/
theorem digest_fits_and_capacity_exact {b : Nat} (h : legalWidth b = true) :
    digestBytes b ≤ rateBytes b ∧ capacityWords b * 64 = 2 * b := by
  obtain rfl | rfl | rfl := (legalWidth_iff b).mp h <;> decide

/-- Settles O12: the three rows of the table are evaluated, the last clause holds row by row. -/
theorem configurationTable : Obligations.ConfigurationTable :=
  ⟨by decide, by decide, by decide, fun _ => digest_fits_and_capacity_exact⟩

end Sys2Proof.Machine
end

