-- ==== Sys2Proof/Proofs/Commands.lean ====
section
/-! PROOFS. For a command, a step and an event, once, what each can do to the state as a whole. -/

namespace Sys2Proof.Machine

/-- A command starts afresh, absorbs, finalizes, or takes an exception (R111, R113, R116, R145). -/
theorem exec_cases (i : Instr) (s : State) :
    (∃ b k, i = .new b k ∧ legalWidth b = true ∧
      exec i s = .next (respond statusOk [] (startInstance b k s))) ∨
    (∃ payload, i = .absorb payload ∧ s.phase = .absorbing ∧ invariantsHold s = true ∧
      exec i s = .next (respond statusOk [] (absorbData payload s))) ∨
    (i = .finalize ∧ s.phase = .absorbing ∧ invariantsHold s = true ∧
      exec i s = .next (respond statusOk (outImage (permuteLanes (padLanes s)).lanes)
        (endInstance (permuteLanes (padLanes s))))) ∨
    ∃ e, exec i s = .next (takeException e s) := by
  cases i with
  | new b k =>
    obtain ⟨hb, h⟩ | ⟨-, h⟩ := execNew_cases b k s
    · exact .inl ⟨b, k, rfl, hb, h⟩
    · exact .inr (.inr (.inr ⟨_, h⟩))
  | absorb payload =>
    obtain ⟨-, h⟩ | ⟨-, -, h⟩ | ⟨hp, hi, h⟩ := execAbsorb_cases payload s
    · exact .inr (.inr (.inr ⟨_, h⟩))
    · exact .inr (.inr (.inr ⟨_, h⟩))
    · exact .inr (.inl ⟨payload, rfl, hp, hi, h⟩)
  | finalize =>
    obtain ⟨-, h⟩ | ⟨-, -, h⟩ | ⟨hp, hi, h⟩ := execFinalize_cases s
    · exact .inr (.inr (.inr ⟨_, h⟩))
    · exact .inr (.inr (.inr ⟨_, h⟩))
    · exact .inr (.inr (.inl ⟨rfl, hp, hi, h⟩))

/-- Every command answers a next state (R14). -/
theorem exists_exec_eq_next (i : Instr) (s : State) : ∃ t, exec i s = .next t := by
  obtain ⟨_, _, -, -, h⟩ | ⟨_, -, -, -, h⟩ | ⟨-, -, -, h⟩ | ⟨_, h⟩ := exec_cases i s <;> exact ⟨_, h⟩

/-- ABSORB that passes its checks absorbs its payload (R113). -/
theorem exec_absorb_of_invariants {s : State} (payload : List Byte) (hp : s.phase = .absorbing)
    (hi : invariantsHold s = true) :
    exec (.absorb payload) s = .next (respond statusOk [] (absorbData payload s)) := by
  obtain ⟨h, -⟩ | ⟨-, h, -⟩ | ⟨-, -, h⟩ := execAbsorb_cases payload s
  · exact absurd hp h
  · rw [hi] at h
    cases h
  · exact h

/-- `OUT` cannot be read outside phase Finalized (R52). -/
theorem readOut_of_phase_ne_finalized (a : Nat) {s : State} (h : s.phase ≠ .finalized) :
    readOut a s = .refused .outNotValid := if_neg h

/-- Every step answers a next state (R14). -/
theorem exists_step_eq_next (s : State) : ∃ t, step s = .next t := by
  obtain ⟨-, h⟩ | ⟨_, _, -, h⟩ | ⟨i, rest, -, h⟩ := step_cases s
  · exact ⟨_, h⟩
  · exact ⟨_, h⟩
  · rw [h]
    exact exists_exec_eq_next i (setInput rest s)

/-- An engine step ends where `step` says, because `step` always answers. -/
theorem step_eq_next_afterStep (s : State) : step s = .next (afterStep s) := by
  obtain ⟨t, h⟩ := exists_step_eq_next s
  simp [afterStep, h]

/-- Taking a response changes the response channel only (R75). -/
theorem takeResponse_snd (s : State) : (takeResponse s).2 = { s with responses := s.responses.tail } := by
  unfold takeResponse
  split
  · next h => rw [h, List.tail_nil, ← h]
  · next h => rw [h, List.tail_cons]

/-- An event is a step, a RESET, or one that touches the two channels at most (R56, R170, R177). -/
theorem onEvent_cases (e : Event) (s : State) :
    (e = .engineStep ∧ step s = .next (onEvent e s)) ∨ (e = .assertReset ∧ onEvent e s = resetEvent s) ∨
      ∃ input responses, onEvent e s = { s with input := input, responses := responses } := by
  cases e with
  | engineStep => exact .inl ⟨rfl, step_eq_next_afterStep s⟩
  | assertReset => exact .inr (.inl ⟨rfl, rfl⟩)
  | send bytes => exact .inr (.inr ⟨s.input ++ bytes, s.responses, rfl⟩)
  | take => exact .inr (.inr ⟨s.input, s.responses.tail, takeResponse_snd s⟩)
  | readOutAt a => exact .inr (.inr ⟨s.input, s.responses, rfl⟩)
  | readFaultRegister => exact .inr (.inr ⟨s.input, s.responses, rfl⟩)

end Sys2Proof.Machine
end

