-- ==== Sys2Proof/Proofs/FaultRecord.lean ====
section
/-! PROOFS. The record `FAULT`: who writes it, and that nothing reads it (R32, R145). -/

namespace Sys2Proof.Machine

/-! ### Who writes the record -/

/-- A command leaves the record alone, or offers it the code that it responds with. -/
theorem exec_fault_cases {i : Instr} {s t : State} (h : exec i s = .next t) :
    t.fault = s.fault ∨
      ∃ e, t.fault = stickyFault e s.fault ∧ t.responses = s.responses ++ [⟨excStatus e, []⟩] := by
  obtain ⟨_, _, -, -, g⟩ | ⟨payload, -, -, -, g⟩ | ⟨-, -, -, g⟩ | ⟨e, g⟩ := exec_cases i s <;>
    cases h.symm.trans g
  · exact .inl rfl
  · exact .inl (absorbData_frame payload s).fault
  · exact .inl rfl
  · exact .inr ⟨e, rfl, rfl⟩

/-- The same of a whole step. -/
theorem step_fault_cases {s t : State} (h : step s = .next t) :
    t.fault = s.fault ∨
      ∃ e, t.fault = stickyFault e s.fault ∧ t.responses = s.responses ++ [⟨excStatus e, []⟩] := by
  obtain ⟨-, g⟩ | ⟨_, _, -, g⟩ | ⟨i, rest, -, g⟩ := step_cases s
  · cases h.symm.trans g
    exact .inl rfl
  · cases h.symm.trans g
    exact .inr ⟨.invalidCommand, rfl, rfl⟩
  · exact exec_fault_cases (s := setInput rest s) (g.symm.trans h)

/-- A record that is set outlives every event but RESET. -/
theorem onEvent_keeps_set_fault {e : Event} {s : State} {f : Exc} (hs : s.fault = some f) (he : e ≠ .assertReset) :
    (onEvent e s).fault = some f := by
  obtain ⟨-, h⟩ | ⟨h, -⟩ | ⟨_, _, h⟩ := onEvent_cases e s
  · obtain g | ⟨c, g, -⟩ := step_fault_cases h
    · rw [g, hs]
    · rw [g, hs, stickyFault_some]
  · exact absurd h he
  · rw [h]
    exact hs

/-- Only a step sets the record, and it responds with the code it records. -/
theorem fault_set_by_step {e : Event} {s : State} {f : Exc} (hs : s.fault = none)
    (hf : (onEvent e s).fault = some f) :
    e = .engineStep ∧ (onEvent e s).responses = s.responses ++ [⟨excStatus f, []⟩] := by
  obtain ⟨he, h⟩ | ⟨-, h⟩ | ⟨_, _, h⟩ := onEvent_cases e s
  · obtain g | ⟨c, g, hr⟩ := step_fault_cases h
    · simp [g, hs] at hf
    · rw [g, hs, stickyFault_none, Option.some.injEq] at hf
      exact ⟨he, hf ▸ hr⟩
  · simp [h] at hf
  · simp [h, hs] at hf

/-! ### Nothing reads the record -/

/-- The state with another `FAULT` record. -/
def withFault (f : Option Exc) (s : State) : State := { s with fault := f }

@[simp] theorem withFault_phase (f : Option Exc) (s : State) : (withFault f s).phase = s.phase := rfl

@[simp] theorem invariantsHold_withFault (f : Option Exc) (s : State) :
    invariantsHold (withFault f s) = invariantsHold s := rfl

theorem flushLane_withFault (f : Option Exc) (w : Lane) (s : State) :
    flushLane w (withFault f s) = withFault f (flushLane w s) := by
  rw [flushLane, flushLane, apply_ite (withFault f)]
  rfl

theorem flushGroups_withFault (f : Option Exc) (n : Nat) (payload : List Byte) (s : State) :
    flushGroups n payload (withFault f s) = withFault f (flushGroups n payload s) := by
  induction n generalizing payload s with
  | zero => rfl
  | succ n ih => rw [flushGroups, flushLane_withFault, ih, flushGroups]

theorem bufferBytes_withFault (f : Option Exc) (vs : List Byte) (s : State) :
    bufferBytes vs (withFault f s) = withFault f (bufferBytes vs s) := by
  induction vs generalizing s with
  | nil => rfl
  | cons v vs ih => exact ih (bufferByte s v)

theorem absorbAligned_withFault (f : Option Exc) (payload : List Byte) (s : State) :
    absorbAligned payload (withFault f s) = withFault f (absorbAligned payload s) := by
  rw [absorbAligned, flushGroups_withFault, bufferBytes_withFault, absorbAligned]

theorem topOff_withFault (f : Option Exc) (payload : List Byte) (s : State) :
    topOff payload (withFault f s) = withFault f (topOff payload s) := by
  rw [topOff, bufferBytes_withFault]
  exact flushLane_withFault f _ (clearSaved (bufferBytes payload s))

theorem absorbData_withFault (f : Option Exc) (payload : List Byte) (s : State) :
    absorbData payload (withFault f s) = withFault f (absorbData payload s) := by
  simp only [absorbData, bufferBytes_withFault, absorbAligned_withFault, topOff_withFault, apply_ite (withFault f)]
  rfl

/-- A command on a state with another record answers the same state but for the record. -/
theorem exec_withFault (f : Option Exc) (i : Instr) (s : State) :
    ∃ t g, exec i s = .next t ∧ exec i (withFault f s) = .next (withFault g t) := by
  cases i with
  | new b k =>
    simp only [exec, execNew]
    split_ifs
    · exact ⟨_, f, rfl, rfl⟩
    · exact ⟨_, stickyFault .invalidConfiguration f, rfl, rfl⟩
  | absorb payload =>
    simp only [exec, execAbsorb, withFault_phase, invariantsHold_withFault, absorbData_withFault]
    split_ifs
    · exact ⟨_, f, rfl, rfl⟩
    · exact ⟨_, stickyFault .invariantViolation f, rfl, rfl⟩
    · exact ⟨_, stickyFault .invalidState f, rfl, rfl⟩
  | finalize =>
    unfold exec execFinalize
    rw [withFault_phase, invariantsHold_withFault]
    split_ifs
    · exact ⟨_, f, rfl, rfl⟩
    · exact ⟨_, stickyFault .invariantViolation f, rfl, rfl⟩
    · exact ⟨_, stickyFault .invalidState f, rfl, rfl⟩

/-- The same of a whole step, since the decoder reads the input channel alone. -/
theorem step_withFault (f : Option Exc) (s : State) :
    ∃ t g, step s = .next t ∧ step (withFault f s) = .next (withFault g t) := by
  unfold step fetch
  rw [show (withFault f s).input = s.input from rfl]
  cases decode s.input with
  | incomplete => exact ⟨s, f, rfl, rfl⟩
  | illegal reason rest => exact ⟨_, stickyFault .invalidCommand f, rfl, rfl⟩
  | record i rest => exact exec_withFault f i (setInput rest s)

end Sys2Proof.Machine
end

