-- ==== Sys2Proof/Proofs/Absorb.lean ====
section
/-! PROOFS. What ABSORB's data does to the position in the block, to the partial lane and to the lanes (R22, R23, R27
to R29, R113, R115). -/

namespace Sys2Proof.Machine

/-! ### The position in the block -/

/-- FLUSH_LANE counts one lane, modulo the rate (R112). -/
theorem flushLane_wordIndex (w : Lane) (s : State) (h : s.wordIndex < s.cfgRateW) :
    (flushLane w s).wordIndex = (s.wordIndex + 1) % s.cfgRateW := by
  obtain ⟨hne, e⟩ | ⟨heq, e⟩ := flushLane_cases w s <;> rw [e]
  · rw [putWord_wordIndex, Nat.mod_eq_of_lt (by omega)]
  · simp [heq]

theorem flushGroups_wordIndex (n : Nat) (payload : List Byte) (s : State) (h : s.wordIndex < s.cfgRateW) :
    (flushGroups n payload s).wordIndex = (s.wordIndex + n) % s.cfgRateW := by
  induction n generalizing payload s with
  | zero => exact (Nat.mod_eq_of_lt h).symm
  | succ n ih =>
    rw [flushGroups, ih _ _ (flushLane_wordIndex_lt _ s h), flushLane_wordIndex _ s h, (flushLane_frame _ s).cfgRateW,
      Nat.mod_add_mod, Nat.add_assoc, Nat.add_comm 1]

theorem absorbAligned_wordIndex (payload : List Byte) (s : State) (h : s.wordIndex < s.cfgRateW) :
    (absorbAligned payload s).wordIndex = (s.wordIndex + payload.length / 8) % s.cfgRateW := by
  rw [absorbAligned, (bufferBytes_lanes _ _).2, flushGroups_wordIndex _ _ s h]

/-- The bytes after the whole groups are what the partial lane receives. -/
theorem absorbAligned_byteIndex (payload : List Byte) (s : State) :
    (absorbAligned payload s).byteIndex = s.byteIndex + payload.length % 8 := by
  rw [absorbAligned, bufferBytes_byteIndex, (flushGroups_saved _ _ _).2, List.length_drop]
  omega

theorem topOff_wordIndex (payload : List Byte) (s : State) (h : s.wordIndex < s.cfgRateW) :
    (topOff payload s).wordIndex = (s.wordIndex + 1) % s.cfgRateW := by
  have hw : (clearSaved (bufferBytes payload s)).wordIndex = s.wordIndex := (bufferBytes_lanes payload s).2
  have hr : (clearSaved (bufferBytes payload s)).cfgRateW = s.cfgRateW := (bufferBytes_frame payload s).cfgRateW
  rw [topOff, flushLane_wordIndex _ _ (by rwa [hw, hr]), hw, hr]

theorem topOff_saved (payload : List Byte) (s : State) :
    (topOff payload s).saved = 0 ∧ (topOff payload s).byteIndex = 0 :=
  flushLane_saved _ (clearSaved (bufferBytes payload s))

/-- `BYTE_INDEX` counts the bytes modulo 8 (R115). -/
theorem absorbData_byteIndex (payload : List Byte) (s : State) (h : s.byteIndex < 8) :
    (absorbData payload s).byteIndex = (s.byteIndex + payload.length) % 8 := by
  obtain ⟨-, hlt, e⟩ | ⟨-, hge, e⟩ | ⟨h0, e⟩ := absorbData_cases payload s <;> rw [e]
  · rw [bufferBytes_byteIndex]
    omega
  · rw [absorbAligned_byteIndex, (topOff_saved _ s).2, List.length_drop]
    omega
  · rw [absorbAligned_byteIndex]
    omega

/-- `WORD_INDEX` counts the completed lanes modulo the rate (R115). -/
theorem absorbData_wordIndex (payload : List Byte) (s : State) (hb : s.byteIndex < 8)
    (hw : s.wordIndex < s.cfgRateW) :
    (absorbData payload s).wordIndex = (s.wordIndex + (s.byteIndex + payload.length) / 8) % s.cfgRateW := by
  obtain ⟨-, hlt, e⟩ | ⟨-, hge, e⟩ | ⟨h0, e⟩ := absorbData_cases payload s <;> rw [e]
  · rw [(bufferBytes_lanes payload s).2, Nat.div_eq_of_lt (by omega), Nat.add_zero, Nat.mod_eq_of_lt hw]
  · have hr := (topOff_frame (payload.take (8 - s.byteIndex)) s).cfgRateW
    have ht := topOff_wordIndex (payload.take (8 - s.byteIndex)) s hw
    rw [absorbAligned_wordIndex _ _ (by rw [ht, hr]; exact Nat.mod_lt _ (by omega)), ht, hr, Nat.mod_add_mod,
      List.length_drop]
    congr 1
    omega
  · rw [absorbAligned_wordIndex _ _ hw, h0, Nat.zero_add]

/-! ### The unfilled bytes of the partial lane -/

/-- R27: the bytes of `SAVED` from byte `BYTE_INDEX` on are zero. -/
def UnfilledBytesZero (s : State) : Prop := s.saved >>> (8 * s.byteIndex) = 0

/-- One byte stays below the byte that is next to be filled. -/
theorem zext64_shiftLeft_ushiftRight (v : Byte) (n : Nat) : (zext64 v <<< (8 * n)) >>> (8 * (n + 1)) = 0 := by
  apply BitVec.eq_of_getLsbD_eq
  intro i hi
  have hv : v.getLsbD (8 * (n + 1) + i - 8 * n) = false := BitVec.getLsbD_of_ge _ _ (by omega)
  simp [zext64, hv]

theorem bufferByte_unfilledBytesZero {s : State} (v : Byte) (h : UnfilledBytesZero s) :
    UnfilledBytesZero (bufferByte s v) := by
  unfold UnfilledBytesZero at h ⊢
  rw [bufferByte_saved, bufferByte_byteIndex, BitVec.ushiftRight_or_distrib, zext64_shiftLeft_ushiftRight, Nat.mul_add,
    BitVec.shiftRight_add, h]
  rfl

theorem bufferBytes_unfilledBytesZero {s : State} (vs : List Byte) (h : UnfilledBytesZero s) :
    UnfilledBytesZero (bufferBytes vs s) := by
  induction vs generalizing s with
  | nil => exact h
  | cons v vs ih => exact ih (bufferByte_unfilledBytesZero v h)

theorem absorbAligned_unfilledBytesZero {s : State} (payload : List Byte) (h : UnfilledBytesZero s) :
    UnfilledBytesZero (absorbAligned payload s) := by
  obtain ⟨hs, hb⟩ := flushGroups_saved (payload.length / 8) payload s
  refine bufferBytes_unfilledBytesZero _ ?_
  rwa [UnfilledBytesZero, hs, hb]

theorem topOff_unfilledBytesZero (payload : List Byte) (s : State) : UnfilledBytesZero (topOff payload s) := by
  obtain ⟨hs, hb⟩ := topOff_saved payload s
  rw [UnfilledBytesZero, hs, hb]
  rfl

theorem absorbData_unfilledBytesZero {s : State} (payload : List Byte) (h : UnfilledBytesZero s) :
    UnfilledBytesZero (absorbData payload s) := by
  obtain ⟨-, -, e⟩ | ⟨-, -, e⟩ | ⟨-, e⟩ := absorbData_cases payload s <;> rw [e]
  · exact bufferBytes_unfilledBytesZero payload h
  · exact absorbAligned_unfilledBytesZero _ (topOff_unfilledBytesZero _ s)
  · exact absorbAligned_unfilledBytesZero payload h

/-! ### The lanes written inside a block -/

/-- From `s` to `t` the lane index goes up and only the lanes it passes are written. -/
structure WritesPassedLanes (s t : State) : Prop where
  wordIndex_le : s.wordIndex ≤ t.wordIndex
  lanes_eq : ∀ (i : Nat) (h : i < 25), i < s.wordIndex ∨ t.wordIndex ≤ i → t.lanes[i] = s.lanes[i]

theorem WritesPassedLanes.trans {s t u : State} (h : WritesPassedLanes s t) (g : WritesPassedLanes t u) :
    WritesPassedLanes s u where
  wordIndex_le := h.wordIndex_le.trans g.wordIndex_le
  lanes_eq i hi hout := by
    have hle := h.wordIndex_le
    have gle := g.wordIndex_le
    rw [g.lanes_eq i hi (by omega), h.lanes_eq i hi (by omega)]

theorem writesPassedLanes_of_eq {s t : State} (hl : t.lanes = s.lanes) (hw : t.wordIndex = s.wordIndex) :
    WritesPassedLanes s t :=
  ⟨hw.ge, fun _ _ _ => by rw [hl]⟩

theorem bufferBytes_writesPassedLanes (vs : List Byte) (s : State) : WritesPassedLanes s (bufferBytes vs s) :=
  writesPassedLanes_of_eq (bufferBytes_lanes vs s).1 (bufferBytes_lanes vs s).2

/-- Before the last rate lane FLUSH_LANE writes one lane and runs no PERMUTE (R112). -/
theorem flushLane_writesPassedLanes (w : Lane) {s : State} (h : s.wordIndex + 1 < s.cfgRateW) :
    WritesPassedLanes s (flushLane w s) := by
  obtain ⟨-, e⟩ | ⟨heq, -⟩ := flushLane_cases w s
  · rw [e]
    refine ⟨by simp, fun i hi hout => ?_⟩
    rw [putWord_wordIndex] at hout
    rw [putWord_lanes, xorLane_getElem, if_neg (by omega)]
  · omega

theorem flushGroups_writesPassedLanes (n : Nat) (payload : List Byte) {s : State}
    (h : s.wordIndex + n < s.cfgRateW) : WritesPassedLanes s (flushGroups n payload s) := by
  induction n generalizing payload s with
  | zero => exact writesPassedLanes_of_eq rfl rfl
  | succ n ih =>
    have hw := flushLane_wordIndex (memRead payload 0 8) s (by omega)
    rw [Nat.mod_eq_of_lt (by omega)] at hw
    have hr := (flushLane_frame (memRead payload 0 8) s).cfgRateW
    exact (flushLane_writesPassedLanes _ (by omega)).trans (ih _ (by omega))

theorem absorbAligned_writesPassedLanes (payload : List Byte) {s : State}
    (h : s.wordIndex + payload.length / 8 < s.cfgRateW) : WritesPassedLanes s (absorbAligned payload s) :=
  (flushGroups_writesPassedLanes _ payload h).trans (bufferBytes_writesPassedLanes _ _)

theorem topOff_writesPassedLanes (payload : List Byte) {s : State} (h : s.wordIndex + 1 < s.cfgRateW) :
    WritesPassedLanes s (topOff payload s) := by
  obtain ⟨hl, hw⟩ := bufferBytes_lanes payload s
  have hr := (bufferBytes_frame payload s).cfgRateW
  have hclear : WritesPassedLanes s (clearSaved (bufferBytes payload s)) := writesPassedLanes_of_eq hl hw
  refine hclear.trans (flushLane_writesPassedLanes _ ?_)
  rwa [clearSaved_wordIndex, clearSaved_cfgRateW, hw, hr]

/-- A payload that does not fill the block writes only the lanes it completes (R23). -/
theorem absorbData_writesPassedLanes (payload : List Byte) {s : State}
    (h : 8 * s.wordIndex + s.byteIndex + payload.length < 8 * s.cfgRateW) :
    WritesPassedLanes s (absorbData payload s) := by
  obtain ⟨-, -, e⟩ | ⟨hb, hge, e⟩ | ⟨-, e⟩ := absorbData_cases payload s <;> rw [e]
  · exact bufferBytes_writesPassedLanes payload s
  · have hw := topOff_wordIndex (payload.take (8 - s.byteIndex)) s (by omega)
    rw [Nat.mod_eq_of_lt (by omega)] at hw
    have hr := (topOff_frame (payload.take (8 - s.byteIndex)) s).cfgRateW
    refine (topOff_writesPassedLanes _ (by omega)).trans (absorbAligned_writesPassedLanes _ ?_)
    rw [List.length_drop]
    omega
  · exact absorbAligned_writesPassedLanes payload (by omega)

end Sys2Proof.Machine
end

