-- ==== Sys2Proof/Proofs/Invariants.lean ====
section
/-! PROOFS. NEW establishes the invariants of R30, ABSORB keeps them, and so does every event. -/

namespace Sys2Proof.Machine

/-- Absorbing keeps the invariants of R30: both indices are remainders, the unfilled bytes stay zero, and the
configuration is not written. -/
theorem absorbData_invariantsHold {s : State} (payload : List Byte) (h : invariantsHold s = true) :
    invariantsHold (absorbData payload s) = true := by
  obtain ⟨hb, hw, hs, hc⟩ := (invariantsHold_iff s).mp h
  have f := absorbData_frame payload s
  refine (invariantsHold_iff _).mpr ⟨?_, ?_, absorbData_unfilledBytesZero payload hs, ?_⟩
  · rw [absorbData_byteIndex payload s hb]
    exact Nat.mod_lt _ (by decide)
  · rw [absorbData_wordIndex payload s hb hw, f.cfgRateW]
    exact Nat.mod_lt _ (by omega)
  · rwa [f.cfgB, f.cfgCapW, f.cfgRateW]

/-- NEW of a legal width leaves a state that meets the invariants of R30. -/
theorem startInstance_invariantsHold {b : Nat} (k : PadRule) (s : State) (h : legalWidth b = true) :
    invariantsHold (startInstance b k s) = true := by
  obtain rfl | rfl | rfl := (legalWidth_iff b).mp h <;> rfl

theorem exec_keeps_inv {i : Instr} {s t : State} (hs : s.Inv) (h : exec i s = .next t) : t.Inv := by
  obtain ⟨b, k, -, hb, g⟩ | ⟨payload, -, -, hi, g⟩ | ⟨-, -, hi, g⟩ | ⟨e, g⟩ := exec_cases i s <;>
    cases h.symm.trans g
  · exact .inr (startInstance_invariantsHold k s hb)
  · exact .inr (absorbData_invariantsHold payload hi)
  · exact .inr hi
  · exact hs

theorem step_keeps_inv {s t : State} (hs : s.Inv) (h : step s = .next t) : t.Inv := by
  obtain ⟨-, g⟩ | ⟨_, _, -, g⟩ | ⟨i, rest, -, g⟩ := step_cases s
  · cases h.symm.trans g
    exact hs
  · cases h.symm.trans g
    exact hs
  · exact exec_keeps_inv (s := setInput rest s) hs (g.symm.trans h)

theorem onEvent_keeps_inv (e : Event) {s : State} (hs : s.Inv) : (onEvent e s).Inv := by
  obtain ⟨-, h⟩ | ⟨-, h⟩ | ⟨_, _, h⟩ := onEvent_cases e s
  · exact step_keeps_inv hs h
  · rw [h]
    exact .inl rfl
  · rw [h]
    exact hs

end Sys2Proof.Machine
end

