-- ==== Sys2Proof/Proofs/EngineState.lean ====
section
/-! PROOFS. The statements of 10_state.md. -/

namespace Sys2Proof.Machine

/-- Settles O41: NEW establishes the invariants, ABSORB keeps them, every other command and event leaves the fields
they speak of, or goes back to Idle. -/
theorem invariantsAreKept : Obligations.InvariantsAreKept :=
  fun _ hs => ⟨fun _ => step_keeps_inv hs, fun e => onEvent_keeps_inv e hs⟩

/-- Settles O20: short of the end of the block ABSORB runs no PERMUTE, and its writes pass no lane of the capacity. -/
theorem absorbWritesOnlyItsRateLanes : Obligations.AbsorbWritesOnlyItsRateLanes := by
  intro s payload hp hi hlt
  obtain ⟨hle, hlanes⟩ := absorbData_writesPassedLanes payload hlt
  obtain ⟨-, hw, -, -⟩ := (invariantsHold_iff _).mp (absorbData_invariantsHold payload hi)
  rw [(absorbData_frame payload s).cfgRateW] at hw
  exact ⟨_, exec_absorb_of_invariants payload hp hi, hle, hw, hlanes⟩

/-- Settles O22: the two indices are the quotient and the remainder by 8 of one count of bytes. -/
theorem absorbAdvancesThePosition : Obligations.AbsorbAdvancesThePosition := by
  intro s payload hp hi
  obtain ⟨hb, hw, -, -⟩ := (invariantsHold_iff s).mp hi
  refine ⟨_, exec_absorb_of_invariants payload hp hi, ?_⟩
  rw [respond_wordIndex, respond_byteIndex, absorbData_wordIndex payload s hb hw, absorbData_byteIndex payload s hb,
    Nat.add_assoc, Nat.mod_mul, Nat.mul_add_mod, Nat.mul_add_div (by decide), Nat.add_comm]

/-- Settles O36: the codes are evaluated; the events keep or set the record as their lemmas say; the step
commutes with a change of the record. -/
theorem faultRecordIsSticky : Obligations.FaultRecordIsSticky := by
  refine ⟨by decide, fun _ _ _ => onEvent_keeps_set_fault, fun _ _ _ => fault_set_by_step, fun _ => rfl,
    fun s f => ?_⟩
  obtain ⟨t, g, ht, hu⟩ := step_withFault f s
  exact ⟨t, withFault g t, ht, hu, rfl⟩

/-- Settles O39: command by command, what its checks let through. -/
theorem phaseTransitions : Obligations.PhaseTransitions := by
  intro s i
  cases i with
  | new b k =>
    obtain ⟨hb, h⟩ | ⟨hb, h⟩ := execNew_cases b k s
    · exact ⟨_, h, (if_pos ((legalWidth_iff b).mp hb)).symm⟩
    · have hb' : ¬(b = 256 ∨ b = 384 ∨ b = 512) := by simp [← legalWidth_iff, hb]
      exact ⟨_, h, (if_neg hb').symm⟩
  | absorb payload =>
    obtain ⟨-, h⟩ | ⟨-, -, h⟩ | ⟨-, -, h⟩ := execAbsorb_cases payload s
    · exact ⟨_, h, rfl⟩
    · exact ⟨_, h, rfl⟩
    · exact ⟨_, h, (absorbData_frame payload s).phase⟩
  | finalize =>
    obtain ⟨hp, h⟩ | ⟨-, hi, h⟩ | ⟨hp, hi, h⟩ := execFinalize_cases s
    · exact ⟨_, h, by simp [hp]⟩
    · exact ⟨_, h, by simp [hi]⟩
    · exact ⟨_, h, by simp [hp, hi]⟩

/-- Settles O40: of what a command can do, starting afresh alone writes the configuration. -/
theorem configurationIsWrittenByNewAlone : Obligations.ConfigurationIsWrittenByNewAlone := by
  intro s t i h
  obtain ⟨b, k, rfl, hb, -⟩ | ⟨payload, -, -, -, g⟩ | ⟨-, -, -, g⟩ | ⟨e, g⟩ := exec_cases i s
  · exact .inl ⟨b, k, rfl, (legalWidth_iff b).mp hb⟩
  · cases h.symm.trans g
    have f := absorbData_frame payload s
    exact .inr ⟨f.cfgB, f.cfgCapW, f.cfgRateW, f.cfgRule⟩
  · cases h.symm.trans g
    exact .inr ⟨rfl, rfl, rfl, rfl⟩
  · cases h.symm.trans g
    exact .inr ⟨rfl, rfl, rfl, rfl⟩

/-- Settles O42: the phase after reset is Idle. -/
theorem invariantsHoldAtReset : Obligations.InvariantsHoldAtReset := .inl rfl

/-- Settles O44: the fields of the reset state are read off, and its phase refuses reads of `OUT`. -/
theorem resetValues : Obligations.ResetValues :=
  ⟨rfl, rfl, rfl, rfl, rfl, rfl, fun a => readOut_of_phase_ne_finalized a (by decide)⟩

/-- Settles O47: four facts about two tables of 24 entries, evaluated. -/
theorem traversalTables : Obligations.TraversalTables := ⟨by decide, by decide, by decide, by decide⟩

end Sys2Proof.Machine
end

