-- ==== Sys2Proof/Proofs/Encoding.lean ====
section
/-! PROOFS. The decoder reads from the record of a well-formed command that command (R71 to R74, R77). -/

namespace Sys2Proof

/-- The bit of a padding rule stands in the header word of NEW at `hdr[16]` (R72). -/
theorem ruleOfBit_bitOfRule (k : PadRule) : ruleOfBit ((bitOfRule k).getLsbD 0) = k := by
  cases k <;> rfl

/-- The header word of NEW carries its operands, for a width of 16 bits (R72). -/
theorem decodeHeader_encodeHeader_new {b : Nat} (k : PadRule) (hb : b ≤ 65535) :
    decodeHeader (encodeHeader (.new b k)) = .new b k := by
  have hop : (encodeHeader (.new b k)).extractLsb' 24 8 = 0x01#8 :=
    (BitVec.extractLsb'_append_eq_of_le (by decide)).trans (by cases k <;> rfl)
  have hreserved : (encodeHeader (.new b k)).extractLsb' 17 7 = 0#7 :=
    (BitVec.extractLsb'_append_eq_of_le (by decide)).trans (by cases k <;> rfl)
  have hwidth : (encodeHeader (.new b k)).extractLsb' 0 16 = BitVec.ofNat 16 b := BitVec.extractLsb'_append_eq_right
  have hrule : (encodeHeader (.new b k)).getLsbD 16 = (bitOfRule k).getLsbD 0 :=
    BitVec.getLsbD_append.trans (by cases k <;> rfl)
  rw [decodeHeader, if_pos hop, if_pos hreserved, hwidth, hrule, ruleOfBit_bitOfRule, BitVec.toNat_ofNat,
    Nat.mod_eq_of_lt (by omega)]

/-- The header word of ABSORB carries the payload's length, for at most `MAXLEN` bytes (R73). -/
theorem decodeHeader_encodeHeader_absorb {payload : List Byte} (h : payload.length ≤ Config.maxLen) :
    decodeHeader (encodeHeader (.absorb payload)) = .absorb payload.length := by
  have hop : (encodeHeader (.absorb payload)).extractLsb' 24 8 = 0x02#8 :=
    BitVec.extractLsb'_append_eq_of_le (by decide)
  have hlen : (encodeHeader (.absorb payload)).extractLsb' 0 24 = BitVec.ofNat 24 payload.length :=
    BitVec.extractLsb'_append_eq_right
  have hlt : payload.length < 2 ^ 24 := Nat.lt_succ_of_le h
  rw [decodeHeader, hop, if_neg (by decide), if_pos rfl, hlen, BitVec.toNat_ofNat,
    Nat.mod_eq_of_lt hlt]

/-- Decoding undoes encoding and leaves the bytes after the record (R71, R77). -/
theorem decode_encode {i : Instr} (rest : List Byte) (h : wellFormed i = true) :
    decode (encode i ++ rest) = .record i rest := by
  rw [encode, List.append_assoc, decode_headerBytes]
  cases i with
  | new b k => simp [decodeBody, decodeHeader_encodeHeader_new k (of_decide_eq_true h), payloadOf]
  | absorb payload => simp [decodeBody, decodeHeader_encodeHeader_absorb (of_decide_eq_true h), payloadOf]
  | finalize => rfl

end Sys2Proof
end

