-- ==== Sys2Proof/Proofs/CommandStream.lean ====
section
/-! PROOFS. A command neither reads nor writes the command channel, so commands that queue there run as if each were
given alone (R58). -/

namespace Sys2Proof.Machine

/-! ### A change of the state that data does not see -/

/-- `g` changes fields that absorbing data neither reads nor writes. -/
structure CommutesWithData (g : State → State) : Prop where
  cfgRateW : ∀ s, (g s).cfgRateW = s.cfgRateW
  saved : ∀ s, (g s).saved = s.saved
  byteIndex : ∀ s, (g s).byteIndex = s.byteIndex
  wordIndex : ∀ s, (g s).wordIndex = s.wordIndex
  bufferByte : ∀ s v, bufferByte (g s) v = g (bufferByte s v)
  clearSaved : ∀ s, clearSaved (g s) = g (clearSaved s)
  putWord : ∀ w s, putWord w (g s) = g (putWord w s)
  permuteLanes : ∀ s, permuteLanes (g s) = g (permuteLanes s)
  rewindWord : ∀ s, rewindWord (g s) = g (rewindWord s)

section
variable {g : State → State} (hg : CommutesWithData g)
include hg

theorem CommutesWithData.flushLane (w : Lane) (s : State) : flushLane w (g s) = g (flushLane w s) := by
  simp only [Machine.flushLane, hg.putWord, hg.wordIndex, hg.cfgRateW, hg.permuteLanes, hg.rewindWord, apply_ite g]

theorem CommutesWithData.flushGroups (n : Nat) (payload : List Byte) (s : State) :
    flushGroups n payload (g s) = g (flushGroups n payload s) := by
  induction n generalizing payload s with
  | zero => rfl
  | succ n ih => rw [Machine.flushGroups, hg.flushLane, ih, Machine.flushGroups]

theorem CommutesWithData.bufferBytes (vs : List Byte) (s : State) : bufferBytes vs (g s) = g (bufferBytes vs s) := by
  induction vs generalizing s with
  | nil => rfl
  | cons v vs ih => rw [bufferBytes_cons, hg.bufferByte, ih, bufferBytes_cons]

theorem CommutesWithData.absorbAligned (payload : List Byte) (s : State) :
    absorbAligned payload (g s) = g (absorbAligned payload s) := by
  rw [Machine.absorbAligned, hg.flushGroups, hg.bufferBytes, Machine.absorbAligned]

theorem CommutesWithData.topOff (payload : List Byte) (s : State) : topOff payload (g s) = g (topOff payload s) := by
  rw [Machine.topOff, hg.bufferBytes, hg.saved, hg.clearSaved, hg.flushLane, Machine.topOff]

theorem CommutesWithData.absorbData (payload : List Byte) (s : State) :
    absorbData payload (g s) = g (absorbData payload s) := by
  simp only [Machine.absorbData, hg.byteIndex, hg.bufferBytes, hg.topOff, hg.absorbAligned, apply_ite g]

end

/-! ### The command channel -/

theorem setInput_commutesWithData (rest : List Byte) : CommutesWithData (setInput rest) :=
  ⟨fun _ => rfl, fun _ => rfl, fun _ => rfl, fun _ => rfl, fun _ _ => rfl, fun _ => rfl, fun _ _ => rfl, fun _ => rfl,
    fun _ => rfl⟩

@[simp] theorem setInput_self (s : State) : setInput s.input s = s := rfl

@[simp] theorem invariantsHold_setInput (rest : List Byte) (s : State) :
    invariantsHold (setInput rest s) = invariantsHold s := rfl

/-- A command answers the same whatever stands in the command channel. -/
theorem exec_setInput {i : Instr} {s t : State} (rest : List Byte) (h : exec i s = .next t) :
    exec i (setInput rest s) = .next (setInput rest t) := by
  cases i with
  | new b k =>
    obtain ⟨hb, g⟩ | ⟨hb, g⟩ := execNew_cases b k s <;> cases h.symm.trans g
    · exact if_pos hb
    · exact if_neg (by simp [hb])
  | absorb payload =>
    obtain ⟨hp, g⟩ | ⟨hp, hi, g⟩ | ⟨hp, hi, g⟩ := execAbsorb_cases payload s <;> cases h.symm.trans g
    · exact if_neg hp
    · exact (if_pos hp).trans (if_neg (by simp [hi]))
    · rw [exec_absorb_of_invariants (s := setInput rest s) payload hp hi, (setInput_commutesWithData rest).absorbData]
      rfl
  | finalize =>
    obtain ⟨hp, g⟩ | ⟨hp, hi, g⟩ | ⟨hp, hi, g⟩ := execFinalize_cases s <;> cases h.symm.trans g
    · exact if_neg hp
    · exact (if_pos hp).trans (if_neg (by simp [hi]))
    · exact (if_pos hp).trans (if_pos hi)

/-- A command leaves the command channel alone. -/
theorem exec_input {i : Instr} {s t : State} (h : exec i s = .next t) : t.input = s.input := by
  have hself := exec_setInput s.input h
  rw [setInput_self, h, Host.Outcome.next.injEq] at hself
  rw [hself, setInput_input]

/-! ### Commands one after another -/

theorem core_run_succ {s t : State} (n : Nat) (h : step s = .next t) :
    Host.Core.run core (n + 1) s = Host.Core.run core n t := by
  simp only [Host.Core.run, show core.step s = .next t from h]

theorem execAll_cons {i : Instr} {s t : State} (is : List Instr) (h : exec i s = .next t) :
    execAll (i :: is) s = execAll is t := by
  rw [execAll, h]

end Sys2Proof.Machine
end

