-- ==== Sys2Proof/Proofs/Bytes.lean ====
section
/-! PROOFS. Bytes of a lane (R11), little-endian lane values (R51), and the output image as the bytes of its lanes
(R52, R53). -/

namespace Sys2Proof.Machine

/-! ### Bytes of a lane -/

/-- `byte(v, k)` read on the lane's number (R11). -/
theorem laneByte_eq_ofNat (v : Lane) (k : Nat) : laneByte v k = BitVec.ofNat 8 (v.toNat / 2 ^ (8 * k)) := by
  rw [laneByte, BitVec.extractLsb', Nat.shiftRight_eq_div_pow]

theorem laneByte_xor (v w : Lane) (k : Nat) : laneByte (v ^^^ w) k = laneByte v k ^^^ laneByte w k :=
  BitVec.extractLsb'_xor

/-- Byte 0 of a little-endian value is the first byte. -/
theorem laneByte_le64_cons_zero (v : Byte) (vs : List Byte) : laneByte (le64 (v :: vs)) 0 = v := by
  apply BitVec.eq_of_getLsbD_eq
  intro i hi
  simpa [laneByte, le64, zext64, hi] using fun _ => by omega

/-- The later bytes of a little-endian value are those of the bytes after the first. -/
theorem laneByte_le64_cons_succ (v : Byte) (vs : List Byte) {k : Nat} (hk : k + 1 < 8) :
    laneByte (le64 (v :: vs)) (k + 1) = laneByte (le64 vs) k := by
  apply BitVec.eq_of_getLsbD_eq
  intro i hi
  have hv : v.getLsbD (8 * (k + 1) + i) = false := BitVec.getLsbD_of_ge _ _ (by omega)
  have hlt : 8 * (k + 1) + i < 64 := by omega
  have hlt' : 8 * k + i < 64 := by omega
  have hle : ¬8 * (k + 1) + i < 8 := by omega
  have hsub : 8 * (k + 1) + i - 8 = 8 * k + i := by omega
  simp [laneByte, le64, zext64, hi, hv, hlt, hlt', hle, hsub]

/-- Byte `k` of a little-endian value is byte `k` of the bytes (R11, R51). -/
theorem laneByte_le64 (vs : List Byte) {k : Nat} (hk : k < 8) (h : k < vs.length) : laneByte (le64 vs) k = vs[k] := by
  induction vs generalizing k with
  | nil => cases h
  | cons v vs ih =>
    cases k with
    | zero => exact laneByte_le64_cons_zero v vs
    | succ k => exact (laneByte_le64_cons_succ v vs hk).trans (ih (by omega) (Nat.lt_of_succ_lt_succ h))

/-! ### Payload bytes as lane values -/

theorem memRead_drop (payload : List Byte) (p q n : Nat) :
    memRead (payload.drop p) q n = memRead payload (p + q) n := by
  rw [memRead, memRead, List.drop_drop]

/-- Byte `j` of what is read at `p` is the payload's byte at `p + j` (R12, R51). -/
theorem laneByte_memRead (payload : List Byte) {p n j : Nat} (hj : j < n) (hn : n ≤ 8) (h : p + j < payload.length) :
    laneByte (memRead payload p n) j = payload[p + j] := by
  rw [memRead, laneByte_le64 _ (by omega) (by rw [List.length_take, List.length_drop]; omega), List.getElem_take,
    List.getElem_drop]

/-! ### The output image -/

/-- The eight bytes of a lane in order. -/
def laneBytes (v : Lane) : List Byte := (List.range 8).map (laneByte v)

@[simp] theorem laneBytes_length (v : Lane) : (laneBytes v).length = 8 := rfl

theorem take_flatMap_laneBytes (lanes : List Lane) (n : Nat) :
    (lanes.flatMap laneBytes).take (8 * n) = (lanes.take n).flatMap laneBytes := by
  induction lanes generalizing n with
  | nil => simp
  | cons v lanes ih =>
    cases n with
    | zero => rfl
    | succ n =>
      rw [List.flatMap_cons, List.take_succ_cons, List.flatMap_cons, ← ih, ← List.take_length_add_append,
        laneBytes_length, Nat.mul_succ, Nat.add_comm]

@[simp] theorem outImage_length (A : Lanes) : (outImage A).length = 200 := by simp [outImage]

/-- Byte `8*i + j` of `OUT` is byte `j` of lane `i` (R52). -/
theorem outByte_of_lane (A : Lanes) (i : Fin 25) (j : Fin 8) (h : i.val * 8 + j.val < 200) :
    outByte A ⟨i.val * 8 + j.val, h⟩ = laneByte A[i] j.val := by
  have hdiv : (i.val * 8 + j.val) / 8 = i.val := by omega
  have hmod : (i.val * 8 + j.val) % 8 = j.val := by omega
  simp [outByte, hdiv, hmod]

/-- `OUT` is the 25 lanes in order, eight bytes each (R52). -/
theorem outImage_eq_flatMap (A : Lanes) : outImage A = A.toList.flatMap laneBytes := by
  have hlanes : A.toList = List.ofFn fun i : Fin 25 => A[i] :=
    List.ext_getElem (by simp) fun i h h' => by rw [List.getElem_ofFn]; rfl
  rw [outImage, ← List.ofFn_eq_map, List.ofFn_mul (m := 25) (n := 8), hlanes, List.flatMap_def, List.map_ofFn]
  simp only [outByte_of_lane]
  rfl

/-- The width of a digest is a whole number of lanes inside the rate (R53, R6). -/
theorem digest_lanes {b : Nat} (h : b = 256 ∨ b = 384 ∨ b = 512) :
    digestBytes b = 8 * (b / 64) ∧ b / 64 ≤ 25 - 2 * b / 64 := by
  obtain rfl | rfl | rfl := h <;> decide

end Sys2Proof.Machine
end

