-- ==== Sys2Proof/Proofs/AbsorbedLanes.lean ====
section
/-! PROOFS. Which lanes the words of a payload are XORed into, and what the partial lane receives, for a payload that
stays inside its block (R54, R112, R113). -/

namespace Sys2Proof.Machine

/-- Before the last rate lane FLUSH_LANE only puts its word (R112). -/
theorem flushLane_of_lt {s : State} (w : Lane) (h : s.wordIndex + 1 < s.cfgRateW) : flushLane w s = putWord w s := by
  obtain ⟨-, e⟩ | ⟨heq, -⟩ := flushLane_cases w s
  · exact e
  · omega

/-- Inside a block the whole groups go by XOR into the lanes from `WORD_INDEX` on, in order (R112, R113). -/
theorem flushGroups_getElem_lanes (n : Nat) (payload : List Byte) {s : State} (h : s.wordIndex + n < s.cfgRateW)
    {i : Nat} (hi : i < 25) (hle : s.wordIndex ≤ i) (hlt : i < s.wordIndex + n) :
    (flushGroups n payload s).lanes[i] = s.lanes[i] ^^^ memRead payload (8 * (i - s.wordIndex)) 8 := by
  induction n generalizing payload s with
  | zero => omega
  | succ n ih =>
    have hrest : (putWord (memRead payload 0 8) s).wordIndex + n < (putWord (memRead payload 0 8) s).cfgRateW := by
      rw [putWord_wordIndex, putWord_cfgRateW]
      omega
    rw [flushGroups, flushLane_of_lt _ (by omega)]
    obtain heq | hgt := hle.eq_or_lt
    · have hpassed : i < (putWord (memRead payload 0 8) s).wordIndex := by
        rw [putWord_wordIndex]
        omega
      rw [(flushGroups_writesPassedLanes n _ hrest).lanes_eq i hi (.inl hpassed), putWord_lanes, xorLane_getElem,
        if_pos heq, heq, Nat.sub_self]
    · rw [ih _ hrest hgt (by rw [putWord_wordIndex]; omega), putWord_lanes, xorLane_getElem, if_neg (by omega),
        memRead_drop, putWord_wordIndex]
      congr 2
      omega

/-- With nothing pending the partial lane receives the bytes after the whole groups (R113, R115). -/
theorem absorbAligned_saved {s : State} (payload : List Byte) (hb : s.byteIndex = 0) (hs : s.saved = 0) :
    (absorbAligned payload s).saved = le64 (payload.drop (8 * (payload.length / 8))) := by
  obtain ⟨hsaved, hbyte⟩ := flushGroups_saved (payload.length / 8) payload s
  simp [absorbAligned, bufferBytes_saved, hsaved, hbyte, hb, hs]

/-- What the whole groups of an aligned payload do to the lanes; the bytes after them do nothing there. -/
theorem absorbAligned_getElem_lanes (payload : List Byte) {s : State}
    (h : s.wordIndex + payload.length / 8 < s.cfgRateW) {i : Nat} (hi : i < 25) (hle : s.wordIndex ≤ i)
    (hlt : i < s.wordIndex + payload.length / 8) :
    (absorbAligned payload s).lanes[i] = s.lanes[i] ^^^ memRead payload (8 * (i - s.wordIndex)) 8 := by
  simp only [absorbAligned, (bufferBytes_lanes _ _).1]
  exact flushGroups_getElem_lanes _ payload h hi hle hlt

theorem absorbData_of_byteIndex_zero (payload : List Byte) {s : State} (h : s.byteIndex = 0) :
    absorbData payload s = absorbAligned payload s := by
  obtain ⟨hpos, -⟩ | ⟨hpos, -⟩ | ⟨-, e⟩ := absorbData_cases payload s
  · omega
  · omega
  · exact e

end Sys2Proof.Machine
end

