-- ==== Sys2Proof/Proofs/OutputAndEngines.lean ====
section
/-! PROOFS. What a state in phase Finalized keeps of its output (R52), and one event at one engine of a system (R61). -/

namespace Sys2Proof.Machine

/-! ### The output after FINALIZE -/

/-- In phase Finalized every command but a NEW of a legal width takes an exception (R142). -/
theorem exec_of_finalized {i : Instr} {s : State} (hp : s.phase = .finalized)
    (hi : ∀ b k, i = .new b k → legalWidth b = false) : ∃ e, exec i s = .next (takeException e s) := by
  obtain ⟨b, k, rfl, hb, -⟩ | ⟨_, -, hp', -⟩ | ⟨-, hp', -⟩ | h := exec_cases i s
  · simp [hi b k rfl] at hb
  · simp [hp] at hp'
  · simp [hp] at hp'
  · exact h

/-- From `s` to `t` what the host can read of the output stays: the phase, the width and the lanes (R52, R53). -/
structure SameOutput (s t : State) : Prop where
  phase : t.phase = s.phase
  cfgB : t.cfgB = s.cfgB
  lanes : t.lanes = s.lanes

theorem SameOutput.readOut {s t : State} (h : SameOutput s t) (a : Nat) : readOut a t = readOut a s := by
  unfold Machine.readOut
  rw [h.phase, h.lanes]

/-- In phase Finalized a step that reads no NEW of a legal width leaves the output (R142, R143, R173). -/
theorem step_sameOutput_of_finalized {s t : State} (hp : s.phase = .finalized)
    (hnew : ∀ b k rest, decode s.input = .record (.new b k) rest → legalWidth b = false) (h : step s = .next t) :
    SameOutput s t := by
  obtain ⟨-, g⟩ | ⟨_, _, -, g⟩ | ⟨i, rest, hrec, g⟩ := step_cases s
  · cases h.symm.trans g
    exact ⟨rfl, rfl, rfl⟩
  · cases h.symm.trans g
    exact ⟨rfl, rfl, rfl⟩
  · obtain ⟨e, he⟩ := exec_of_finalized (s := setInput rest s) hp fun b k hi => hnew b k rest (hi ▸ hrec)
    cases (h.symm.trans g).trans he
    exact ⟨rfl, rfl, rfl⟩

/-! ### Several engines -/

theorem systemEvent_of_getElem? {i : Nat} {y : EngineSystem} {s : State} (e : Event) (h : y.engines[i]? = some s) :
    systemEvent i e y = .next ⟨y.engines.set i (onEvent e s)⟩ := by
  rw [systemEvent, h]

theorem systemRun_cons {i : Nat} {e : Event} {y z : EngineSystem} (rest : List (Nat × Event))
    (h : systemEvent i e y = .next z) : systemRun ((i, e) :: rest) y = systemRun rest z := by
  rw [systemRun, h]

@[simp] theorem streamOf_cons_same (i : Nat) (e : Event) (rest : List (Nat × Event)) :
    streamOf i ((i, e) :: rest) = e :: streamOf i rest := by
  simp [streamOf]

theorem streamOf_cons_of_ne {i k : Nat} (e : Event) (rest : List (Nat × Event)) (h : i ≠ k) :
    streamOf k ((i, e) :: rest) = streamOf k rest := by
  simp [streamOf, h]

end Sys2Proof.Machine
end

