-- ==== Sys2Proof/Proofs/Memory.lean ====
section
/-! PROOFS. The statements of 20_memory.md. -/

namespace Sys2Proof.Machine

/-- Settles O9, by induction on the commands: each step decodes the first record, and its command moves past the
bytes of the others. -/
theorem commandStreamRunsInOrder : Obligations.CommandStreamRunsInOrder := by
  intro commands s rest hwf hin
  induction commands generalizing s with
  | nil => rw [← show s.input = rest from hin]; rfl
  | cons i is ih =>
    obtain ⟨hi, his⟩ := List.forall_mem_cons.mp hwf
    rw [List.flatMap_cons, List.append_assoc] at hin
    obtain ⟨t, ht⟩ := exists_exec_eq_next i (setInput (is.flatMap encode ++ rest) s)
    have hstep : step s = .next t := (step_of_decode_record (hin ▸ decode_encode _ hi)).trans ht
    have hexec : execAll is (setInput rest t) = execAll (i :: is) (setInput rest s) :=
      (execAll_cons is (exec_setInput rest ht)).symm
    exact (core_run_succ _ hstep).trans ((ih t his (exec_input ht)).trans hexec)

/-- Settles O21: a lane holds the XOR of its old value with the eight bytes read for it, the partial lane the value of
the bytes left, and a little-endian value holds byte `j` at byte `j`. -/
theorem messageBytesLandLittleEndian : Obligations.MessageBytesLandLittleEndian := by
  intro s payload hp hinv hw hb hlen
  obtain ⟨-, -, hsaved, -⟩ := (invariantsHold_iff s).mp hinv
  rw [hb, Nat.mul_zero, BitVec.ushiftRight_zero] at hsaved
  have hexec := exec_absorb_of_invariants payload hp hinv
  rw [absorbData_of_byteIndex_zero payload hb] at hexec
  refine ⟨_, hexec, fun i j hi hj hi8 hq => ?_, fun j hq => ?_⟩
  · have hlane := absorbAligned_getElem_lanes payload (s := s) (by omega) hi (by omega) (by omega)
    rw [hw, Nat.sub_zero] at hlane
    simp only [respond_lanes]
    rw [hlane, laneByte_xor, laneByte_memRead payload hj le_rfl hq]
  · rw [respond_saved, absorbAligned_saved payload hb hsaved,
      laneByte_le64 _ (by omega) (by rw [List.length_drop]; omega), List.getElem_drop]

/-- Settles O32: the image is the lanes' bytes, and the width is a whole number of lanes. -/
theorem digestIsTheFirstLanes : Obligations.DigestIsTheFirstLanes := by
  intro A b hb
  obtain ⟨hbytes, hrate⟩ := digest_lanes hb
  refine ⟨outImage_length A, ?_, ?_, hrate⟩
  · rw [digestWindow, List.length_take, outImage_length, digestBytes]
    omega
  · rw [digestWindow, hbytes, outImage_eq_flatMap, take_flatMap_laneBytes]
    rfl

/-- Settles O33: the two checks of a read, and a lane's byte read on its number. -/
theorem outputImageReads : Obligations.OutputImageReads := by
  intro s a
  refine ⟨fun hp h => ?_, fun hp h => ?_, readOut_of_phase_ne_finalized a⟩
  · rw [readOut, if_pos hp, dif_pos h, outByte, laneByte_eq_ofNat]
  · rw [readOut, if_pos hp, dif_neg (by omega)]

/-- Settles O34: of the events, a step alone could write what the host reads, and in this phase it raises an exception
at most. -/
theorem outputStaysUntilNew : Obligations.OutputStaysUntilNew := by
  intro s e hp he hnew
  have hsame : SameOutput s (onEvent e s) := by
    obtain ⟨hstep, h⟩ | ⟨h, -⟩ | ⟨_, _, h⟩ := onEvent_cases e s
    · refine step_sameOutput_of_finalized hp (fun b k rest hrec => ?_) h
      obtain ⟨h256, h384, h512⟩ := hnew hstep b k rest hrec
      simp [legalWidth, h256, h384, h512]
    · exact absurd h he
    · rw [h]
      exact ⟨rfl, rfl, rfl⟩
  exact ⟨hsame.phase.trans hp, hsame.cfgB, hsame.readOut⟩

/-- Settles O56, by induction on the schedule: its first event is the first of its own engine's stream, and is in no
other stream. -/
theorem enginesAreIndependent : Obligations.EnginesAreIndependent := by
  intro schedule y hin
  induction schedule generalizing y with
  | nil => exact ⟨y, rfl, rfl, fun _ _ h => h⟩
  | cons p rest ih =>
    obtain ⟨i, e⟩ := p
    obtain ⟨hi, hrest⟩ := List.forall_mem_cons.mp hin
    have hevent := systemEvent_of_getElem? e (List.getElem?_eq_getElem hi)
    obtain ⟨z, hz, hlen, hengines⟩ := ih ⟨y.engines.set i (onEvent e y.engines[i])⟩ (by simpa using hrest)
    refine ⟨z, (systemRun_cons rest hevent).trans hz, hlen.trans List.length_set, fun k s hk => ?_⟩
    obtain rfl | hne := eq_or_ne i k
    · obtain ⟨_, rfl⟩ := List.getElem?_eq_some_iff.mp hk
      rw [streamOf_cons_same]
      exact hengines i _ (List.getElem?_set_self hi)
    · rw [streamOf_cons_of_ne e rest hne]
      exact hengines k s ((List.getElem?_set_ne hne).trans hk)

end Sys2Proof.Machine
end

