-- ==== Sys2Proof/Proofs/Headers.lean ====
section
/-! PROOFS. Header words read as numbers: the fields, the decoder by cases on them, and for each answer of the decoder
the words that get it (R71 to R74, R76, R82). -/

namespace Sys2Proof

/-! ### The fields -/

/-- A bit field of a header word, read on the number. -/
theorem extractLsb'_eq_ofNat_iff (hdr : Word32) (start : Nat) {len c : Nat} (hc : c < 2 ^ len) :
    hdr.extractLsb' start len = BitVec.ofNat len c ↔ hdr.toNat / 2 ^ start % 2 ^ len = c := by
  rw [← BitVec.toNat_inj, BitVec.extractLsb'_toNat, BitVec.toNat_ofNat, Nat.shiftRight_eq_div_pow,
    Nat.mod_eq_of_lt hc]

/-- The opcode of a header word, read on the number (R71). -/
theorem opcode_eq_ofNat_iff (hdr : Word32) {c : Nat} (hc : c < 2 ^ 8) :
    hdr.extractLsb' 24 8 = BitVec.ofNat 8 c ↔ hdr.toNat / 2 ^ 24 = c := by
  have hlt := hdr.isLt
  rw [extractLsb'_eq_ofNat_iff hdr 24 hc]
  omega

/-- `hdr[16]` names the rule, read on the number (R72). -/
theorem ruleOfBit_getLsbD (hdr : Word32) :
    ruleOfBit (hdr.getLsbD 16) = if hdr.toNat / 65536 % 2 = 1 then .keccak else .sha3 := by
  simp [ruleOfBit, BitVec.getLsbD, Nat.testBit_eq_decide_div_mod_eq]

/-- The number of a header word, from its channel bytes (R82). -/
theorem headerOfBytes_toNat (b0 b1 b2 b3 : Byte) :
    (headerOfBytes b0 b1 b2 b3).toNat = b0.toNat + 256 * b1.toNat + 65536 * b2.toNat + 16777216 * b3.toNat := by
  have happend {m n : Nat} (u : BitVec m) (v : BitVec n) : (u ++ v).toNat = u.toNat * 2 ^ n + v.toNat := by
    rw [BitVec.toNat_append, ← Nat.shiftLeft_add_eq_or_of_lt v.isLt, Nat.shiftLeft_eq]
  simp only [headerOfBytes, happend]
  omega

/-- Four channel bytes are the bytes of the header word they make (R82). -/
theorem headerBytes_headerOfBytes (b0 b1 b2 b3 : Byte) :
    headerBytes (headerOfBytes b0 b1 b2 b3) = [b0, b1, b2, b3] := by
  have h0 := b0.isLt
  have h1 := b1.isLt
  have h2 := b2.isLt
  have h3 := b3.isLt
  simp only [headerBytes, List.cons.injEq, and_true, ← BitVec.toNat_inj, BitVec.extractLsb'_toNat,
    Nat.shiftRight_eq_div_pow, headerOfBytes_toNat]
  omega

/-! ### The words of each command -/

/-- The decoder of header words, read on the number (R71 to R74, R76). -/
theorem decodeHeader_eq_ite_toNat (hdr : Word32) :
    decodeHeader hdr =
      if hdr.toNat / 2 ^ 24 = 1 then
        if hdr.toNat / 2 ^ 17 % 2 ^ 7 = 0 then
          .new (hdr.toNat % 65536) (if hdr.toNat / 65536 % 2 = 1 then .keccak else .sha3)
        else .illegal .reservedNew
      else if hdr.toNat / 2 ^ 24 = 2 then .absorb (hdr.toNat % 2 ^ 24)
      else if hdr.toNat / 2 ^ 24 = 3 then
        if hdr.toNat / 2 ^ 0 % 2 ^ 24 = 0 then .finalize else .illegal .reservedFinalize
      else .illegal .undefinedOpcode := by
  rw [decodeHeader, ruleOfBit_getLsbD, BitVec.extractLsb'_toNat, BitVec.extractLsb'_toNat, Nat.shiftRight_zero]
  exact if_congr (opcode_eq_ofNat_iff hdr (by decide))
    (if_congr (extractLsb'_eq_ofNat_iff hdr 17 (by decide)) rfl rfl)
    (if_congr (opcode_eq_ofNat_iff hdr (by decide)) rfl
      (if_congr (opcode_eq_ofNat_iff hdr (by decide))
        (if_congr (extractLsb'_eq_ofNat_iff hdr 0 (by decide)) rfl rfl) rfl))

/-- The words that are NEW, with their operands (R72). -/
theorem decodeHeader_eq_new_iff (hdr : Word32) (b : Nat) (k : PadRule) :
    decodeHeader hdr = .new b k ↔
      hdr.toNat / 2 ^ 17 = 128 ∧ b = hdr.toNat % 65536 ∧
        k = if hdr.toNat / 65536 % 2 = 1 then PadRule.keccak else PadRule.sha3 := by
  rw [decodeHeader_eq_ite_toNat]
  split_ifs <;> simp [eq_comm] <;> omega

/-- The words that are ABSORB, with their length (R73). -/
theorem decodeHeader_eq_absorb_iff (hdr : Word32) (len : Nat) :
    decodeHeader hdr = .absorb len ↔ hdr.toNat / 2 ^ 24 = 2 ∧ len = hdr.toNat % 2 ^ 24 := by
  rw [decodeHeader_eq_ite_toNat]
  split_ifs <;> simp [eq_comm] <;> omega

/-- The four channel bytes of an ABSORB header: the length, least significant byte first, and the opcode (R73, R82). -/
theorem decodeHeader_headerOfBytes_eq_absorb_iff (b0 b1 b2 b3 : Byte) (len : Nat) :
    decodeHeader (headerOfBytes b0 b1 b2 b3) = .absorb len ↔
      b3 = 0x02#8 ∧ len = b0.toNat + 256 * b1.toNat + 65536 * b2.toNat := by
  have h0 := b0.isLt
  have h1 := b1.isLt
  have h2 := b2.isLt
  rw [decodeHeader_eq_absorb_iff, headerOfBytes_toNat, ← BitVec.toNat_inj, BitVec.toNat_ofNat]
  omega

/-- The one word that is FINALIZE (R74). -/
theorem decodeHeader_eq_finalize_iff (hdr : Word32) :
    decodeHeader hdr = .finalize ↔ hdr.toNat = 0x03000000 := by
  rw [decodeHeader_eq_ite_toNat]
  split_ifs <;> simp <;> omega

/-- The words that are a NEW with a reserved bit set (R72, R76 b). -/
theorem decodeHeader_eq_reservedNew_iff (hdr : Word32) :
    decodeHeader hdr = .illegal .reservedNew ↔ hdr.toNat / 2 ^ 24 = 1 ∧ hdr.toNat / 2 ^ 17 ≠ 128 := by
  rw [decodeHeader_eq_ite_toNat]
  split_ifs <;> simp <;> omega

/-- The words that are a FINALIZE with a reserved bit set (R74, R76 c). -/
theorem decodeHeader_eq_reservedFinalize_iff (hdr : Word32) :
    decodeHeader hdr = .illegal .reservedFinalize ↔ hdr.toNat / 2 ^ 24 = 3 ∧ hdr.toNat ≠ 0x03000000 := by
  rw [decodeHeader_eq_ite_toNat]
  split_ifs <;> simp <;> omega

/-- The illegal words are those of cases (a) to (c) of R76. -/
theorem exists_decodeHeader_eq_illegal_iff (hdr : Word32) :
    (∃ reason, decodeHeader hdr = .illegal reason) ↔ Machine.illegalWord hdr = true := by
  rw [decodeHeader_eq_ite_toNat, Machine.illegalWord]
  split_ifs <;> simp <;> omega

/-- A legal header word is told by what it decodes to: no two words are the same command. -/
theorem eq_of_decodeHeader_eq {u v : Word32} (h : decodeHeader u = decodeHeader v)
    (hlegal : ∀ reason, decodeHeader v ≠ .illegal reason) : u = v := by
  apply BitVec.eq_of_toNat_eq
  cases e : decodeHeader v with
  | new b k =>
    obtain ⟨hu, hbu, hku⟩ := (decodeHeader_eq_new_iff u b k).mp (h.trans e)
    obtain ⟨hv, hbv, hkv⟩ := (decodeHeader_eq_new_iff v b k).mp e
    rw [hku] at hkv
    split_ifs at hkv <;> omega
  | absorb len =>
    obtain ⟨hu, hlu⟩ := (decodeHeader_eq_absorb_iff u len).mp (h.trans e)
    obtain ⟨hv, hlv⟩ := (decodeHeader_eq_absorb_iff v len).mp e
    omega
  | finalize => rw [(decodeHeader_eq_finalize_iff u).mp (h.trans e), (decodeHeader_eq_finalize_iff v).mp e]
  | illegal reason => exact absurd e (hlegal reason)

/-! ### The words of the encoder -/

/-- A word that decodes to a command is the word that encodes it, since that word decodes to it too (R72). -/
theorem encodeHeader_eq_of_decodeHeader_new {hdr : Word32} {b : Nat} {k : PadRule} (h : decodeHeader hdr = .new b k) :
    encodeHeader (.new b k) = hdr :=
  eq_of_decodeHeader_eq
    ((decodeHeader_encodeHeader_new k (width_le_of_decodeHeader_new h)).trans h.symm) (by simp [h])

/-- The same of ABSORB, where the header gives the length of the payload (R73). -/
theorem encodeHeader_eq_of_decodeHeader_absorb {hdr : Word32} {payload : List Byte}
    (h : decodeHeader hdr = .absorb payload.length) : encodeHeader (.absorb payload) = hdr :=
  eq_of_decodeHeader_eq
    ((decodeHeader_encodeHeader_absorb (length_le_of_decodeHeader_absorb h)).trans h.symm) (by simp [h])

/-- The same of FINALIZE (R74). -/
theorem encodeHeader_eq_of_decodeHeader_finalize {hdr : Word32} (h : decodeHeader hdr = .finalize) :
    encodeHeader .finalize = hdr :=
  eq_of_decodeHeader_eq (Eq.trans (by decide) h.symm) (by simp [h])

/-- The six legal NEW words of R72. -/
theorem supported_new_word_iff (hdr : Word32) :
    (∃ b k, decodeHeader hdr = .new b k ∧ (b = 256 ∨ b = 384 ∨ b = 512)) ↔
      hdr ∈ ([0x01000100, 0x01000180, 0x01000200, 0x01010100, 0x01010180, 0x01010200] : List Word32) := by
  constructor
  · rintro ⟨b, k, h, hb⟩
    rw [← encodeHeader_eq_of_decodeHeader_new h]
    obtain rfl | rfl | rfl := hb <;> cases k <;> decide
  · intro h
    simp only [List.mem_cons, List.not_mem_nil, or_false] at h
    obtain rfl | rfl | rfl | rfl | rfl | rfl := h <;> exact ⟨_, _, rfl, by decide⟩

end Sys2Proof
end

