-- ==== Sys2Proof/Proofs/Records.lean ====
section
/-! PROOFS. A record and the bytes after it: which are complete, illegal or cut short, that an accepted one is the
encoding of its command, and what its one response says (R71, R75, R76, R82). -/

namespace Sys2Proof

/-! ### Decoding a record -/

/-- ABSORB takes from the channel as many bytes as its header says (R73). -/
theorem decodeBody_absorb_append {hdr : Word32} {payload : List Byte} (rest : List Byte)
    (h : decodeHeader hdr = .absorb payload.length) :
    decodeBody hdr (payload ++ rest) = .record (.absorb payload) rest := by
  simp [decodeBody, h]

/-- FINALIZE is a record of one word (R74). -/
theorem decodeBody_of_finalize {hdr : Word32} (rest : List Byte) (h : decodeHeader hdr = .finalize) :
    decodeBody hdr rest = .record .finalize rest := by
  simp [decodeBody, h]

/-- What a header and the bytes after it decode to, when that is an illegal word (R76). -/
theorem decodeBody_eq_illegal_iff (hdr : Word32) (tail after : List Byte) (reason : IllegalReason) :
    decodeBody hdr tail = .illegal reason after ↔ decodeHeader hdr = .illegal reason ∧ after = tail := by
  unfold decodeBody
  cases decodeHeader hdr with
  | new b k => simp
  | absorb len => by_cases hlen : len ≤ tail.length <;> simp [hlen]
  | finalize => simp
  | illegal r => simp [eq_comm]

/-- When a header and the bytes after it are no complete record (R82). -/
theorem decodeBody_eq_incomplete_iff (hdr : Word32) (tail : List Byte) :
    decodeBody hdr tail = .incomplete ↔ ∃ len, decodeHeader hdr = .absorb len ∧ tail.length < len := by
  unfold decodeBody
  cases decodeHeader hdr with
  | new b k => simp
  | absorb len => by_cases hlen : len ≤ tail.length <;> simp [hlen]; omega
  | finalize => simp
  | illegal r => simp

/-- A record is the encoding of its command (R71). -/
theorem eq_encode_append_of_decodeBody {hdr : Word32} {tail rest : List Byte} {i : Instr}
    (h : decodeBody hdr tail = .record i rest) : headerBytes hdr ++ tail = encode i ++ rest := by
  obtain ⟨b, k, hnew, rfl, rfl⟩ | ⟨len, habs, hlen, rfl, rfl⟩ | ⟨hfin, rfl, rfl⟩ := decodeBody_record_cases h
  · simp [encode, encodeHeader_eq_of_decodeHeader_new hnew, payloadOf]
  · have htake : decodeHeader hdr = .absorb (tail.take len).length := by rw [List.length_take_of_le hlen, habs]
    rw [encode, encodeHeader_eq_of_decodeHeader_absorb htake, payloadOf, List.append_assoc, List.take_append_drop]
  · simp [encode, encodeHeader_eq_of_decodeHeader_finalize hfin, payloadOf]

/-- Which channels hold no complete record (R82). -/
theorem decode_eq_incomplete_iff (bytes : List Byte) :
    decode bytes = .incomplete ↔
      bytes.length < 4 ∨ ∃ b0 b1 b2 rest, bytes = b0 :: b1 :: b2 :: 0x02#8 :: rest ∧
        rest.length < b0.toNat + 256 * b1.toNat + 65536 * b2.toNat := by
  match bytes with
  | [] | [_] | [_, _] | [_, _, _] => simp [decode]
  | b0 :: b1 :: b2 :: b3 :: tail =>
    simp [decode, decodeBody_eq_incomplete_iff, decodeHeader_headerOfBytes_eq_absorb_iff]

end Sys2Proof

namespace Sys2Proof.Machine

/-! ### The response to a record -/

/-- An illegal word in the channel leaves the step one case: InvalidCommand (R143). -/
theorem step_of_decode_illegal {s : State} {reason : IllegalReason} {rest : List Byte}
    (h : decode s.input = .illegal reason rest) :
    step s = .next (takeException .invalidCommand (setInput rest s)) := by
  obtain ⟨e, -⟩ | ⟨_, _, e, hstep⟩ | ⟨_, _, e, -⟩ := step_cases s <;> cases h.symm.trans e
  exact hstep

/-- The status of an exception is one of 1 to 4 (R75, R140). -/
theorem excStatus_bounds (e : Exc) : excStatus e ≠ 0 ∧ (excStatus e).toNat ≤ 4 := by
  cases e <;> decide

/-- What a command's one response says (R75). -/
theorem exec_response (i : Instr) (s : State) :
    ∃ t r, exec i s = .next t ∧ t.responses = s.responses ++ [r] ∧ r.status.toNat ≤ 4 ∧
      (r.status = 0 → i = .finalize → r.data = outImage t.lanes ∧ t.phase = .finalized) ∧
      (r.status ≠ 0 ∨ i ≠ .finalize → r.data = []) := by
  obtain ⟨b, k, rfl, -, h⟩ | ⟨payload, rfl, -, -, h⟩ | ⟨rfl, -, -, h⟩ | ⟨e, h⟩ := exec_cases i s
  · exact ⟨_, ⟨statusOk, []⟩, h, rfl, by decide, by simp, fun _ => rfl⟩
  · refine ⟨_, ⟨statusOk, []⟩, h, ?_, by decide, by simp, fun _ => rfl⟩
    rw [respond_responses, (absorbData_frame payload s).responses]
  · exact ⟨_, ⟨statusOk, _⟩, h, rfl, Nat.zero_le 4, fun _ _ => ⟨rfl, rfl⟩, by simp [statusOk]⟩
  · obtain ⟨hne, hle⟩ := excStatus_bounds e
    exact ⟨_, ⟨excStatus e, []⟩, h, rfl, hle, fun h0 => absurd h0 hne, fun _ => rfl⟩

end Sys2Proof.Machine
end

