-- ==== Sys2Proof/Proofs/HashPieces.lean ====
section
/-! PROOFS. How HASH cuts a long message into payloads (R80). -/

namespace Sys2Proof.Machine

theorem hashPieces_ne_nil (m n : Nat) (bytes : List Byte) : hashPieces m n bytes ≠ [] := by
  cases n <;> simp [hashPieces]

/-- The pieces are the message, cut. -/
theorem flatten_hashPieces (m n : Nat) (bytes : List Byte) : (hashPieces m n bytes).flatten = bytes := by
  induction n generalizing bytes with
  | zero => simp [hashPieces]
  | succ n ih => rw [hashPieces, List.flatten_cons, ih, List.take_append_drop]

/-- All pieces but the last have `m` bytes. -/
theorem length_of_mem_dropLast_hashPieces {m n : Nat} {bytes p : List Byte} (h : m * n ≤ bytes.length)
    (hp : p ∈ (hashPieces m n bytes).dropLast) : p.length = m := by
  induction n generalizing bytes with
  | zero => simp [hashPieces] at hp
  | succ n ih =>
    rw [Nat.mul_succ] at h
    rw [hashPieces, List.dropLast_cons_of_ne_nil (hashPieces_ne_nil _ _ _), List.mem_cons] at hp
    obtain rfl | hp := hp
    · exact List.length_take_of_le (by omega)
    · exact ih (by rw [List.length_drop]; omega) hp

/-- No piece is longer than `m` bytes, if `n + 1` pieces of `m` bytes can hold the message. -/
theorem length_le_of_mem_hashPieces {m n : Nat} {bytes p : List Byte} (h : bytes.length ≤ m * (n + 1))
    (hp : p ∈ hashPieces m n bytes) : p.length ≤ m := by
  induction n generalizing bytes with
  | zero =>
    obtain rfl := List.mem_singleton.mp hp
    omega
  | succ n ih =>
    rw [Nat.mul_succ] at h
    obtain rfl | hp := List.mem_cons.mp hp
    · exact List.length_take_le m bytes
    · exact ih (by rw [List.length_drop]; omega) hp

end Sys2Proof.Machine
end

