-- ==== Sys2Proof/Proofs/CommandFormats.lean ====
section
/-! PROOFS. The statements of 30_encoding.md. -/

namespace Sys2Proof.Machine

/-- Settles O1: the decoder undoes the encoder. -/
theorem decodeOfEncodeIsIdentity : Obligations.DecodeOfEncodeIsIdentity :=
  fun _ rest h => decode_encode rest h

/-- Settles O2: the header is the encoder's word for the command it decodes to, because no two legal words decode
alike; the payload is what the header counts off. -/
theorem recordBytesAreTheEncoding : Obligations.RecordBytesAreTheEncoding := by
  intro bytes i rest h
  obtain ⟨b0, b1, b2, b3, tail, rfl, hbody⟩ := exists_header_of_decode_record h
  have hbytes := eq_encode_append_of_decodeBody hbody
  rw [headerBytes_headerOfBytes] at hbytes
  exact ⟨wellFormed_of_decode_record h, hbytes⟩

/-- Settles O3: the fields of NEW read on the number; a NEW word outside the six has a width that
is not legal, and NEW checks its width first. -/
theorem newWordFields : Obligations.NewWordFields := by
  intro hdr six
  refine ⟨decodeHeader_eq_new_iff hdr, fun hop hreserved => ?_, supported_new_word_iff hdr, fun b k s h hsix => ?_⟩
  · exact (decodeHeader_eq_reservedNew_iff hdr).mpr ⟨hop, hreserved⟩
  · obtain ⟨hb, -⟩ | ⟨-, hexec⟩ := execNew_cases b k s
    · exact absurd ((supported_new_word_iff hdr).mp ⟨b, k, h, (legalWidth_iff b).mp hb⟩) hsix
    · exact hexec

/-- Settles O4: the words of each format read on the number, and what the decoder takes after such a header. -/
theorem absorbAndFinalizeWordFields : Obligations.AbsorbAndFinalizeWordFields := by
  intro hdr
  refine ⟨decodeHeader_eq_absorb_iff hdr, fun len payload rest h hlen => ?_, decodeHeader_eq_finalize_iff hdr,
    fun rest h => ?_, fun hop hlow => ?_⟩
  · rw [decode_headerBytes]
    exact decodeBody_absorb_append rest (hlen ▸ h)
  · rw [decode_headerBytes]
    exact decodeBody_of_finalize rest h
  · exact (decodeHeader_eq_reservedFinalize_iff hdr).mpr ⟨hop, hlow⟩

/-- Settles O5: a word the decoder rejects leaves the step one case, and it is rejected exactly in cases (a) to (c). -/
theorem illegalWordsRaiseInvalidCommand : Obligations.IllegalWordsRaiseInvalidCommand := by
  refine ⟨by decide, fun hdr rest => ?_⟩
  simp only [decode_headerBytes, decodeBody_eq_illegal_iff, and_true]
  refine ⟨exists_decodeHeader_eq_illegal_iff hdr, fun _ _ h => h.2, fun s hin hill => ?_⟩
  obtain ⟨reason, hreason⟩ := (exists_decodeHeader_eq_illegal_iff hdr).mpr hill
  have hdecode : decode s.input = .illegal reason rest := by
    rw [hin, decode_headerBytes]
    exact (decodeBody_eq_illegal_iff hdr rest rest reason).mpr ⟨hreason, rfl⟩
  exact step_of_decode_illegal hdecode

/-- Settles O6: only the header of ABSORB asks for more bytes than its own four. -/
theorem incompleteRecordTakesNoStep : Obligations.IncompleteRecordTakesNoStep := by
  refine ⟨decode_eq_incomplete_iff, fun s h => ?_⟩
  obtain ⟨-, hstep⟩ | ⟨_, _, e, -⟩ | ⟨_, _, e, -⟩ := step_cases s
  · exact hstep
  all_goals cases h.symm.trans e

/-- Settles O10: an illegal word responds 3 with no data, and a command responds once, whichever of its cases it is. -/
theorem everyRecordGetsOneResponse : Obligations.EveryRecordGetsOneResponse := by
  intro s hcomplete
  obtain ⟨h, -⟩ | ⟨reason, rest, h, hstep⟩ | ⟨i, rest, h, hstep⟩ := step_cases s
  · exact absurd h hcomplete
  · exact ⟨_, ⟨3, []⟩, hstep, rfl, by decide, fun h0 => absurd h0 (by decide), fun _ => rfl⟩
  · obtain ⟨t, r, hexec, hresp, hle, hdata, hempty⟩ := exec_response i (setInput rest s)
    have hfin : (∃ rest, decode s.input = .record .finalize rest) ↔ i = .finalize := by simp [h]
    rw [hfin]
    exact ⟨t, r, hstep.trans hexec, hresp, hle, hdata, hempty⟩

/-- Settles O31: a long message is cut into as many whole pieces as it holds, and the rest is shorter than a piece. -/
theorem hashExpansion : Obligations.HashExpansion := by
  intro bytes b k
  refine ⟨hashPayloads bytes, rfl, ?_⟩
  by_cases hlen : bytes.length ≤ Config.maxLen
  · have hone : hashPayloads bytes = [bytes] := if_pos hlen
    simpa [hone, Config.maxLen] using hlen
  · have hmany : hashPayloads bytes = hashPieces Config.maxLen (bytes.length / Config.maxLen) bytes := if_neg hlen
    rw [hmany]
    refine ⟨flatten_hashPieces .., hashPieces_ne_nil _ _ _, fun p hp => ?_, fun p hp => ?_, fun h => absurd h hlen⟩
    · exact length_le_of_mem_hashPieces (Nat.lt_mul_div_succ _ (by decide)).le hp
    · exact length_of_mem_dropLast_hashPieces (Nat.mul_div_le _ _) hp

/-- Settles O57: the three words name three branches of the assembler, each with the same operand. -/
theorem newSugarExpands : Obligations.NewSugarExpands := by
  intro name k h
  simp [lineCommands, newSugar, sugarOperand, h]

end Sys2Proof.Machine
end

