-- ==== Sys2Proof/Proofs/StepMaps.lean ====
section
/-! PROOFS. The bits of ROTL64 on its domain (R90), the lanes of THETA, CHI and IOTA (R91, R94, R95), and that ROTL64,
CHI and IOTA can be undone. -/

namespace Sys2Proof.Machine

/-! ### ROTL64 -/

theorem rotl64_of_mem_domain (v : Lane) {n : Nat} (h1 : 1 ≤ n) (h63 : n ≤ 63) :
    rotl64 v n = (v <<< n) ||| (v >>> (64 - n)) :=
  if_pos ⟨h1, h63⟩

/-- Bit `i` of the result is the bit `n` places below it, around the end of the word (R90). -/
theorem getLsbD_rotl64 (v : Lane) {n i : Nat} (h1 : 1 ≤ n) (h63 : n ≤ 63) (hi : i < 64) :
    (rotl64 v n).getLsbD i = v.getLsbD ((i + (64 - n)) % 64) := by
  rw [rotl64_of_mem_domain v h1 h63, BitVec.getLsbD_or, BitVec.getLsbD_shiftLeft, BitVec.getLsbD_ushiftRight]
  by_cases hlow : i < n
  · rw [Nat.mod_eq_of_lt (by omega)]
    simp [hlow, Nat.add_comm]
  · have hhigh : v.getLsbD (64 - n + i) = false := BitVec.getLsbD_of_ge v _ (by omega)
    have hmod : (i + (64 - n)) % 64 = i - n := by omega
    simp [hlow, hi, hhigh, hmod]

/-- Bit `i` of a lane moves to bit `(i + n) mod 64` (R90). -/
theorem getLsbD_rotl64_add_mod (v : Lane) {n i : Nat} (h1 : 1 ≤ n) (h63 : n ≤ 63) (hi : i < 64) :
    (rotl64 v n).getLsbD ((i + n) % 64) = v.getLsbD i := by
  rw [getLsbD_rotl64 v h1 h63 (Nat.mod_lt _ (by decide))]
  congr 1
  omega

theorem rotl64_injective {n : Nat} (h1 : 1 ≤ n) (h63 : n ≤ 63) : Function.Injective fun v => rotl64 v n := by
  intro v w h
  refine BitVec.eq_of_getLsbD_eq fun i hi => ?_
  rw [← getLsbD_rotl64_add_mod v h1 h63 hi, ← getLsbD_rotl64_add_mod w h1 h63 hi]
  exact congrArg (BitVec.getLsbD · _) h

/-! ### Theta -/

theorem columnParity_getElem (A : Lanes) {x : Nat} (h : x < 5) :
    (columnParity A)[x] = A[x] ^^^ A[x + 5] ^^^ A[x + 10] ^^^ A[x + 15] ^^^ A[x + 20] := by
  simp [columnParity]

theorem thetaTerms_getElem (C : Vector Lane 5) {x : Nat} (h : x < 5) :
    (thetaTerms C)[x] =
      C[(x + 4) % 5]'(Nat.mod_lt _ (by decide)) ^^^ rotl64 (C[(x + 1) % 5]'(Nat.mod_lt _ (by decide))) 1 := by
  simp [thetaTerms]

theorem theta_getElem (A : Lanes) {i x : Nat} (hi : i < 25) (hx : x < 5) (hmod : i % 5 = x) :
    (theta A)[i] = A[i] ^^^ (thetaTerms (columnParity A))[x] := by
  subst hmod
  simp [theta]

/-- The five equal terms XORed into a column leave one of them in its parity. -/
theorem columnParity_theta (A : Lanes) {x : Nat} (h : x < 5) :
    (columnParity (theta A))[x] = (columnParity A)[x] ^^^ (thetaTerms (columnParity A))[x] := by
  have hlane (i : Nat) (hi : i < 25) (hmod : i % 5 = x) := theta_getElem A hi h hmod
  rw [columnParity_getElem _ h, columnParity_getElem A h, hlane x (by omega) (by omega),
    hlane (x + 5) (by omega) (by omega), hlane (x + 10) (by omega) (by omega),
    hlane (x + 15) (by omega) (by omega), hlane (x + 20) (by omega) (by omega)]
  generalize (thetaTerms (columnParity A))[x] = t
  calc
    _ = A[x] ^^^ A[x + 5] ^^^ A[x + 10] ^^^ A[x + 15] ^^^ A[x + 20] ^^^ (t ^^^ (t ^^^ (t ^^^ (t ^^^ t)))) := by ac_rfl
    _ = A[x] ^^^ A[x + 5] ^^^ A[x + 10] ^^^ A[x + 15] ^^^ A[x + 20] ^^^ t := by simp

/-! ### Chi -/

theorem chi_getElem (A : Lanes) {x y : Nat} (hx : x < 5) (hy : y < 5) :
    (chi A)[5 * y + x] =
      A[5 * y + x] ^^^
        ((~~~ A[5 * y + (x + 1) % 5]'(by omega)) &&& A[5 * y + (x + 2) % 5]'(by omega)) := by
  have hrow : (5 * y + x) / 5 = y := by omega
  have hcolumn : (5 * y + x) % 5 = x := by omega
  simp only [chi, Vector.getElem_ofFn, Fin.getElem_fin, hrow, hcolumn]

/-- Chi on one row of bits. -/
def chiRow (r : Fin 5 → Bool) (x : Fin 5) : Bool := r x ^^ (!r (x + 1) && r (x + 2))

/-- Bits `z` of the five lanes of row `y`. -/
def rowBits (A : Lanes) (y : Fin 5) (z : Nat) (x : Fin 5) : Bool := (A[5 * y.val + x.val]).getLsbD z

theorem rowBits_chi (A : Lanes) (y : Fin 5) {z : Nat} (hz : z < 64) :
    rowBits (chi A) y z = chiRow (rowBits A y z) := by
  funext x
  simp [rowBits, chiRow, chi_getElem A x.isLt y.isLt, Fin.val_add, hz]

theorem lanes_eq_of_rowBits_eq {A B : Lanes} (h : ∀ y z, z < 64 → rowBits A y z = rowBits B y z) : A = B := by
  refine Vector.ext fun i hi => BitVec.eq_of_getLsbD_eq fun z hz => ?_
  have hbit := congrFun (h ⟨i / 5, by omega⟩ z hz) ⟨i % 5, Nat.mod_lt _ (by decide)⟩
  simpa only [rowBits, Nat.div_add_mod] using hbit

/-- The 32 rows of five bits have 32 images. -/
theorem chiRow_injective : Function.Injective chiRow := by decide

theorem chi_injective : Function.Injective chi := by
  intro A B h
  refine lanes_eq_of_rowBits_eq fun y z hz => chiRow_injective ?_
  rw [← rowBits_chi A y hz, ← rowBits_chi B y hz, h]

/-! ### Iota -/

theorem iota_getElem_zero (A : Lanes) (r : Fin 24) : (iota A r)[0] = A[0] ^^^ roundConstants[r] := by
  simp [iota]

theorem iota_getElem_of_pos (A : Lanes) (r : Fin 24) {i : Nat} (h : i < 25) (hpos : 0 < i) : (iota A r)[i] = A[i] := by
  simp [iota, hpos.ne]

theorem iota_iota (A : Lanes) (r : Fin 24) : iota (iota A r) r = A := by
  refine Vector.ext fun i hi => ?_
  obtain rfl | hpos := i.eq_zero_or_pos
  · rw [iota_getElem_zero, iota_getElem_zero, BitVec.xor_assoc, BitVec.xor_self, BitVec.xor_zero]
  · rw [iota_getElem_of_pos _ r hi hpos, iota_getElem_of_pos A r hi hpos]

end Sys2Proof.Machine
end

