-- ==== Sys2Proof/Proofs/ThetaInjective.lean ====
section
/-! PROOFS. THETA can be undone, from R91. On the bits of the column parities it adds two shifted copies; over bits such
a map, applied twice, is one of the same kind with both shifts doubled. Six doublings take the shift by one bit around
the 64 bits of a lane, and what is left, on the five columns alone, has a short inverse. -/

namespace Sys2Proof.Machine

/-! ### Functions on a group with two shifted copies added -/

section
variable {G : Type} [AddCommGroup G]

/-- `f` with its copies shifted by `a` and by `b` added. -/
def addShifts (a b : G) (f : G → Bool) (g : G) : Bool := f g ^^ (f (g + a) ^^ f (g + b))

/-- What is added twice cancels. -/
theorem addShifts_addShifts (a b : G) (f : G → Bool) :
    addShifts a b (addShifts a b f) = addShifts (a + a) (b + b) f := by
  funext g
  simp only [addShifts, ← add_assoc, add_right_comm g b a]
  simp [Bool.xor_left_comm]

theorem addShifts_injective_of_two_pow (k : Nat) {a b : G}
    (h : Function.Injective (addShifts (2 ^ k • a) (2 ^ k • b))) : Function.Injective (addShifts a b) := by
  induction k generalizing a b with
  | zero => simpa using h
  | succ k ih =>
    have hdouble (c : G) : 2 ^ (k + 1) • c = 2 ^ k • (c + c) := by rw [pow_succ, mul_smul, two_nsmul]
    rw [hdouble, hdouble] at h
    have htwice : addShifts a b ∘ addShifts a b = addShifts (a + a) (b + b) := funext (addShifts_addShifts a b)
    exact .of_comp (htwice ▸ ih h)

end

/-! ### The column parities as a function of column and bit -/

/-- Bit `z` of the lane of column `x`. -/
def columnBits (C : Vector Lane 5) (p : Fin 5 × Fin 64) : Bool := (C[p.1.val]).getLsbD p.2.val

theorem columnBits_injective : Function.Injective columnBits := fun _ _ h =>
  Vector.ext fun x hx => BitVec.eq_of_getLsbD_eq fun z hz => congrFun h (⟨x, hx⟩, ⟨z, hz⟩)

theorem columnBits_columnParity_theta (A : Lanes) :
    columnBits (columnParity (theta A)) = addShifts (4, 0) (1, 63) (columnBits (columnParity A)) := by
  funext ⟨x, z⟩
  simp only [columnBits, addShifts, columnParity_theta A x.isLt, thetaTerms_getElem _ x.isLt, BitVec.getLsbD_xor,
    getLsbD_rotl64 _ le_rfl (by decide) z.isLt, Prod.mk_add_mk, add_zero, Fin.val_add]
  rfl

theorem addShifts_columns_leftInverse :
    Function.LeftInverse (addShifts (2, 0) (3, 0)) (addShifts ((1, 0) : Fin 5 × Fin 64) (4, 0)) := by
  intro f
  funext ⟨x, z⟩
  simp [addShifts, add_assoc, Bool.xor_left_comm, Bool.xor_comm]

theorem addShifts_theta_injective : Function.Injective (addShifts ((4, 0) : Fin 5 × Fin 64) (1, 63)) := by
  have hbefore : 2 ^ 6 • ((4, 0) : Fin 5 × Fin 64) = (1, 0) := by decide
  have hafter : 2 ^ 6 • ((1, 63) : Fin 5 × Fin 64) = (4, 0) := by decide
  refine addShifts_injective_of_two_pow 6 ?_
  rw [hbefore, hafter]
  exact addShifts_columns_leftInverse.injective

/-- The result gives the parities of the input, and these what was added to its lanes. -/
theorem theta_injective : Function.Injective theta := by
  intro A B h
  have hparity : columnParity A = columnParity B := by
    refine columnBits_injective (addShifts_theta_injective ?_)
    rw [← columnBits_columnParity_theta, ← columnBits_columnParity_theta, h]
  refine Vector.ext fun i hi => ?_
  have hmod : i % 5 < 5 := Nat.mod_lt _ (by decide)
  have hA := theta_getElem A hi hmod rfl
  rw [h, theta_getElem B hi hmod rfl, hparity] at hA
  exact ((BitVec.xor_left_inj _).mp hA).symm

end Sys2Proof.Machine
end

