-- ==== Sys2Proof/Proofs/RhoPi.lean ====
section
/-! PROOFS. RHO_PI one lane at a time: each position of the pass writes its own lane and carries on that lane's input
value (R92), so each lane of the result is one rotated lane of the input (R93). -/

namespace Sys2Proof.Machine

theorem piSequence_injective {i j : Fin 24} (h : piSequence[i] = piSequence[j]) : i = j := by
  obtain ⟨-, -, hinj, -⟩ := traversalTables
  exact hinj i j h

/-! ### Positions one after another -/

theorem rhoPiStep_getElem (st : Lanes × Lane) (i : Fin 24) :
    (rhoPiStep st i).1[piSequence[i]] = rotl64 st.2 rhoOffsets[i] :=
  Vector.getElem_set_self _

/-- A lane that no position names stays. -/
theorem foldl_rhoPiStep_getElem (l : List (Fin 24)) (st : Lanes × Lane) {t : Fin 25}
    (h : ∀ i ∈ l, piSequence[i] ≠ t) : (l.foldl rhoPiStep st).1[t] = st.1[t] := by
  induction l generalizing st with
  | nil => rfl
  | cons i l ih =>
    have hi : piSequence[i].val ≠ t.val := Fin.val_ne_of_ne (h i List.mem_cons_self)
    rw [List.foldl_cons, ih _ fun j hj => h j (List.mem_cons_of_mem i hj)]
    exact Vector.getElem_set_ne piSequence[i].isLt t.isLt hi

/-- The array and the carried lane when the pass comes to position `n`. -/
def rhoPiBefore (A : Lanes) (n : Nat) : Lanes × Lane :=
  ((List.finRange 24).take n).foldl rhoPiStep (A, A[1])

theorem rhoPiBefore_succ (A : Lanes) (i : Fin 24) : rhoPiBefore A (i + 1) = rhoPiStep (rhoPiBefore A i) i := by
  simp [rhoPiBefore, List.take_add_one]

/-- The positions before `i` name other lanes. -/
theorem rhoPiBefore_getElem (A : Lanes) (i : Fin 24) : (rhoPiBefore A i).1[piSequence[i]] = A[piSequence[i]] := by
  refine foldl_rhoPiStep_getElem _ _ fun j hj e => ?_
  obtain rfl := piSequence_injective e
  simp [List.mem_take_iff_getElem, Fin.ext_iff] at hj

/-- The lane whose input value is carried to position `i`. -/
def laneSource (i : Fin 24) : Fin 25 := if i.val = 0 then 1 else piSequence[i.val - 1]

theorem rhoPiBefore_carried (A : Lanes) (i : Fin 24) : (rhoPiBefore A i).2 = A[laneSource i] := by
  obtain ⟨n, hn⟩ := i
  cases n with
  | zero => rfl
  | succ n =>
    rw [rhoPiBefore_succ A ⟨n, by omega⟩]
    exact rhoPiBefore_getElem A ⟨n, by omega⟩

/-! ### The lanes of the result -/

theorem rhoPi_getElem_zero (A : Lanes) : (rhoPi A)[0] = A[0] := by
  obtain ⟨-, hne, -⟩ := traversalTables
  exact foldl_rhoPiStep_getElem _ _ (t := 0) fun i _ => hne i

/-- The positions after `i` leave what `i` writes. -/
theorem rhoPi_getElem_of_piSequence (A : Lanes) {i : Fin 24} {t : Fin 25} (h : piSequence[i] = t) :
    (rhoPi A)[t] = rotl64 A[laneSource i] rhoOffsets[i] := by
  subst h
  have hsplit : rhoPi A = (((List.finRange 24).drop (i + 1)).foldl rhoPiStep (rhoPiBefore A (i + 1))).1 := by
    rw [rhoPiBefore, ← List.foldl_append, List.take_append_drop, rhoPi]
  have hlater : ∀ j ∈ (List.finRange 24).drop (i + 1), piSequence[j] ≠ piSequence[i] := by
    intro j hj e
    obtain rfl := piSequence_injective e
    obtain ⟨k, _, hk⟩ := List.mem_drop_iff_getElem.mp hj
    rw [List.getElem_finRange] at hk
    have hval : j.val + 1 + k = j.val := congrArg Fin.val hk
    omega
  rw [hsplit, foldl_rhoPiStep_getElem _ _ hlater, rhoPiBefore_succ, rhoPiStep_getElem, rhoPiBefore_carried]

/-- The tables of R93 follow the carried lane along the tables of R35. -/
theorem exists_position_of_lane (s : Fin 24) : ∃ i : Fin 24,
    (laneSource i).val = s.val + 1 ∧ piSequence[i] = laneTarget[s] ∧ rhoOffsets[i] = laneRotation[s] := by
  revert s
  decide

theorem rhoPi_getElem_laneTarget (A : Lanes) (s : Fin 24) :
    (rhoPi A)[laneTarget[s]] = rotl64 (A[s.val + 1]'(by omega)) laneRotation[s] := by
  obtain ⟨i, hsource, htarget, hrotation⟩ := exists_position_of_lane s
  rw [rhoPi_getElem_of_piSequence A htarget, hrotation]
  simp only [Fin.getElem_fin, hsource]

theorem laneRotation_bounds (s : Fin 24) : 1 ≤ laneRotation[s] ∧ laneRotation[s] ≤ 63 := by
  revert s
  decide

/-- Every lane of the input can be read back from where it stands in the result. -/
theorem rhoPi_injective : Function.Injective rhoPi := by
  intro A B h
  refine Vector.ext fun i hi => ?_
  cases i with
  | zero => rw [← rhoPi_getElem_zero A, ← rhoPi_getElem_zero B, h]
  | succ s =>
    obtain ⟨h1, h63⟩ := laneRotation_bounds ⟨s, by omega⟩
    have hA := rhoPi_getElem_laneTarget A ⟨s, by omega⟩
    rw [h] at hA
    exact rotl64_injective h1 h63 (hA.symm.trans (rhoPi_getElem_laneTarget B ⟨s, by omega⟩))

end Sys2Proof.Machine
end

