-- ==== Sys2Proof/Proofs/Permutation.lean ====
section
/-! PROOFS. The rounds one after another (R96, R97), and the statements of 40_permutation.md. -/

namespace Sys2Proof.Machine

/-! ### The rounds -/

/-- The array after the first `n` rounds. -/
def afterRounds (A : Lanes) (n : Nat) : Lanes := ((List.finRange 24).take n).foldl keccakRound A

theorem afterRounds_succ (A : Lanes) (r : Fin 24) :
    afterRounds A (r.val + 1) = keccakRound (afterRounds A r.val) r := by
  simp [afterRounds, List.take_add_one]

theorem permute_eq_afterRounds (A : Lanes) : permute A = afterRounds A 24 := by
  rw [permute]
  rfl

/-- Each of the four step maps can be undone. -/
theorem keccakRound_injective (r : Fin 24) : Function.Injective (keccakRound · r) :=
  have hiota : Function.Injective (iota · r) := Function.Involutive.injective (iota_iota · r)
  hiota.comp (chi_injective.comp (rhoPi_injective.comp theta_injective))

theorem afterRounds_injective {n : Nat} (h : n ≤ 24) : Function.Injective (afterRounds · n) := by
  induction n with
  | zero => exact Function.injective_id
  | succ n ih =>
    intro A B hAB
    refine ih (by omega) (keccakRound_injective ⟨n, h⟩ ?_)
    simpa only [afterRounds_succ _ ⟨n, h⟩] using hAB

theorem permute_injective : Function.Injective permute := by
  simpa only [← permute_eq_afterRounds] using afterRounds_injective le_rfl

theorem finite_lanes : Finite Lanes :=
  .of_injective (fun A (i : Fin 25) => A[i]) fun _ _ h => Vector.ext fun i hi => congrFun h ⟨i, hi⟩

/-- An injection of the finitely many arrays into themselves meets every array. -/
theorem bijective_of_injective {f : Lanes → Lanes} (h : Function.Injective f) : Function.Bijective f :=
  have := finite_lanes
  Finite.injective_iff_bijective.mp h

/-! ### The statements -/

/-- Settles O46: the two shifts by definition, and the bits one by one. -/
theorem rotationMovesBits : Obligations.RotationMovesBits := fun v _ h1 h63 =>
  ⟨rotl64_of_mem_domain v h1 h63, fun _ hi => getLsbD_rotl64_add_mod v h1 h63 hi⟩

/-- Settles O48: the term of a column, with the parities of its two neighbours written out. -/
theorem thetaRule : Obligations.ThetaRule := by
  intro A x y hx hy C
  rw [theta_getElem A (by omega) hx (by omega), thetaTerms_getElem _ hx, columnParity_getElem, columnParity_getElem]

/-- Settles O49: the fused pass read at each lane, which also shows how to undo it. -/
theorem rhoPiUnfused : Obligations.RhoPiUnfused :=
  ⟨fun A => ⟨rhoPi_getElem_zero A, rhoPi_getElem_laneTarget A⟩, bijective_of_injective rhoPi_injective⟩

/-- Settles O50: the lane's row and column read from its number. -/
theorem chiRule : Obligations.ChiRule := fun A _ _ hx hy => chi_getElem A hx hy

/-- Settles O51: Iota writes lane 0, and the same constant twice cancels. -/
theorem iotaRule : Obligations.IotaRule := fun A r =>
  ⟨iota_getElem_zero A r, fun _ h hpos => iota_getElem_of_pos A r h hpos, iota_iota A r⟩

/-- Settles O52: the sequence is the arrays after the first rounds. -/
theorem permuteRunsTheRoundsInOrder : Obligations.PermuteRunsTheRoundsInOrder := fun A =>
  ⟨afterRounds A, rfl, afterRounds_succ A, permute_eq_afterRounds A⟩

/-- Settles O53: four known values, evaluated. -/
theorem permuteKnownLanes : Obligations.PermuteKnownLanes := by
  unfold Obligations.PermuteKnownLanes
  decide +kernel

/-- Settles O54: every round can be undone. -/
theorem permuteIsBijective : Obligations.PermuteIsBijective := bijective_of_injective permute_injective

end Sys2Proof.Machine
end

