-- ==== Sys2Proof/Proofs/AbsorbBytes.lean ====
section
/-! PROOFS. ABSORB is ABSORB_BYTE of each payload byte in order (R114). The byte form is a fold, so a payload may be cut
anywhere; each path of R113 is one such cut. -/

namespace Sys2Proof.Machine

/-! ### The partial lane -/

/-- No byte is pending. -/
structure BufferEmpty (s : State) : Prop where
  saved : s.saved = 0
  byteIndex : s.byteIndex = 0

theorem topOff_bufferEmpty (payload : List Byte) (s : State) : BufferEmpty (topOff payload s) :=
  ⟨(topOff_saved payload s).1, (topOff_saved payload s).2⟩

theorem BufferEmpty.of_unfilledBytesZero {s : State} (hs : UnfilledBytesZero s) (hb : s.byteIndex = 0) :
    BufferEmpty s := by
  rw [UnfilledBytesZero, hb, Nat.mul_zero, BitVec.ushiftRight_zero] at hs
  exact ⟨hs, hb⟩

theorem BufferEmpty.unfilledBytesZero {s : State} (h : BufferEmpty s) : UnfilledBytesZero s := by
  rw [UnfilledBytesZero, h.saved]
  exact BitVec.zero_ushiftRight

theorem clearSaved_of_bufferEmpty {s : State} (h : BufferEmpty s) : clearSaved s = s := by
  obtain ⟨hs, hb⟩ := h
  cases s
  cases hs
  cases hb
  rfl

theorem clearSaved_bufferBytes (vs : List Byte) (s : State) : clearSaved (bufferBytes vs s) = clearSaved s := by
  induction vs generalizing s with
  | nil => rfl
  | cons v vs ih => exact ih (bufferByte s v)

/-- Buffering writes the partial lane and nothing else. -/
theorem bufferBytes_eq (vs : List Byte) (s : State) :
    bufferBytes vs s =
      { s with saved := (bufferBytes vs s).saved, byteIndex := (bufferBytes vs s).byteIndex } := by
  induction vs generalizing s with
  | nil => rfl
  | cons v vs ih => exact ih (bufferByte s v)

/-- Topping off flushes the pending bytes with the new ones above them (R113, step 2). -/
theorem topOff_eq (payload : List Byte) (s : State) :
    topOff payload s = flushLane (s.saved ||| (le64 payload <<< (8 * s.byteIndex))) (clearSaved s) := by
  rw [topOff, bufferBytes_saved, clearSaved_bufferBytes]

theorem topOff_of_bufferEmpty (payload : List Byte) {s : State} (h : BufferEmpty s) :
    topOff payload s = flushLane (le64 payload) s := by
  rw [topOff_eq, clearSaved_of_bufferEmpty h, h.saved, h.byteIndex, Nat.mul_zero, BitVec.shiftLeft_zero]
  exact congrArg (flushLane · s) BitVec.zero_or

/-! ### Byte at a time -/

/-- ABSORB_BYTE buffers its byte, or completes the partial lane with it and flushes it (R114). -/
theorem absorbByte_cases (s : State) (v : Byte) :
    (s.byteIndex + 1 ≠ 8 ∧ absorbByte s v = bufferByte s v) ∨
      (s.byteIndex + 1 = 8 ∧ absorbByte s v = topOff [v] s) := by
  unfold absorbByte
  rw [bufferByte_byteIndex]
  split
  · exact .inr ⟨‹_›, rfl⟩
  · exact .inl ⟨‹_›, rfl⟩

theorem absorbBytes_append (vs ws : List Byte) (s : State) :
    absorbBytes (vs ++ ws) s = absorbBytes ws (absorbBytes vs s) := List.foldl_append

/-- Bytes that do not complete the partial lane are buffered. -/
theorem absorbBytes_of_lt {payload : List Byte} {s : State} (h : payload.length < 8 - s.byteIndex) :
    absorbBytes payload s = bufferBytes payload s := by
  induction payload generalizing s with
  | nil => rfl
  | cons v vs ih =>
    rw [List.length_cons] at h
    obtain ⟨-, e⟩ | ⟨heq, -⟩ := absorbByte_cases s v
    · have hbuffer : absorbBytes (v :: vs) s = absorbBytes vs (bufferByte s v) := congrArg (absorbBytes vs) e
      rw [hbuffer, ih (by rw [bufferByte_byteIndex]; omega), bufferBytes_cons]
    · omega

/-- Bytes that just complete the partial lane top it off. -/
theorem absorbBytes_of_fill {payload : List Byte} {s : State} (hb : s.byteIndex < 8)
    (h : payload.length = 8 - s.byteIndex) : absorbBytes payload s = topOff payload s := by
  induction payload generalizing s with
  | nil =>
    rw [List.length_nil] at h
    omega
  | cons v vs ih =>
    rw [List.length_cons] at h
    obtain ⟨hne, e⟩ | ⟨heq, e⟩ := absorbByte_cases s v
    · have hbuffer : absorbBytes (v :: vs) s = absorbBytes vs (bufferByte s v) := congrArg (absorbBytes vs) e
      rw [hbuffer, ih (by rw [bufferByte_byteIndex]; omega) (by rw [bufferByte_byteIndex]; omega)]
      rfl
    · obtain rfl := List.eq_nil_of_length_eq_zero (show vs.length = 0 by omega)
      exact e

/-! ### ABSORB -/

theorem flushGroups_eq_absorbBytes (n : Nat) {payload : List Byte} {s : State} (h : BufferEmpty s)
    (hlen : 8 * n ≤ payload.length) : flushGroups n payload s = absorbBytes (payload.take (8 * n)) s := by
  induction n generalizing payload s with
  | zero => rfl
  | succ n ih =>
    have hfirst : absorbBytes (payload.take 8) s = flushLane (memRead payload 0 8) s := by
      rw [absorbBytes_of_fill (by rw [h.byteIndex]; decide) (by rw [h.byteIndex, List.length_take]; omega),
        topOff_of_bufferEmpty _ h]
      rfl
    have hempty : BufferEmpty (flushLane (memRead payload 0 8) s) :=
      ⟨(flushLane_saved _ s).1.trans h.saved, (flushLane_saved _ s).2.trans h.byteIndex⟩
    rw [show 8 * (n + 1) = 8 + 8 * n by omega, List.take_add, absorbBytes_append, hfirst, flushGroups,
      ih hempty (by rw [List.length_drop]; omega)]

theorem absorbAligned_eq_absorbBytes (payload : List Byte) {s : State} (h : BufferEmpty s) :
    absorbAligned payload s = absorbBytes payload s := by
  have hbyte := (flushGroups_saved (payload.length / 8) payload s).2.trans h.byteIndex
  conv_rhs => rw [← List.take_append_drop (8 * (payload.length / 8)) payload]
  rw [absorbBytes_append, ← flushGroups_eq_absorbBytes _ h (by omega),
    absorbBytes_of_lt (by rw [hbyte, List.length_drop]; omega), absorbAligned]

/-- ABSORB takes its payload as ABSORB_BYTE would (R113, R114). -/
theorem absorbData_eq_absorbBytes (payload : List Byte) {s : State} (hb : s.byteIndex < 8)
    (hs : UnfilledBytesZero s) : absorbData payload s = absorbBytes payload s := by
  obtain ⟨-, hlt, e⟩ | ⟨-, hge, e⟩ | ⟨h0, e⟩ := absorbData_cases payload s <;> rw [e]
  · exact (absorbBytes_of_lt hlt).symm
  · conv_rhs => rw [← List.take_append_drop (8 - s.byteIndex) payload]
    rw [absorbBytes_append, absorbBytes_of_fill hb (List.length_take_of_le hge),
      absorbAligned_eq_absorbBytes _ (topOff_bufferEmpty _ s)]
  · exact absorbAligned_eq_absorbBytes payload (.of_unfilledBytesZero hs h0)

/-- The partial lane completed, ABSORB goes on with the bytes after it (R113, step 2). -/
theorem absorbData_append_of_fill {head : List Byte} (rest : List Byte) {s : State} (hb : s.byteIndex < 8)
    (hs : UnfilledBytesZero s) (h : head.length = 8 - s.byteIndex) :
    absorbData (head ++ rest) s = absorbData rest (topOff head s) := by
  have hempty := topOff_bufferEmpty head s
  rw [absorbData_eq_absorbBytes _ hb hs, absorbBytes_append, absorbBytes_of_fill hb h,
    absorbData_eq_absorbBytes rest (by rw [hempty.byteIndex]; decide) hempty.unfilledBytesZero]

end Sys2Proof.Machine
end

