-- ==== Sys2Proof/Proofs/PermutationCount.lean ====
section
/-! PROOFS. The count of PERMUTE in a counted run (R113, R123): the blocks counted, the lanes flushed since and the
bytes pending add up to the bytes taken, so the count is a quotient by the block length. -/

namespace Sys2Proof.Machine

/-- The lanes flushed by a counted run: those of the blocks counted, and those of the block under way. -/
def lanesFlushed (c : State × Nat) : Nat := c.1.cfgRateW * c.2 + c.1.wordIndex

/-- The bytes taken by a counted run: those of the flushed lanes, and the pending ones. -/
def bytesTaken (c : State × Nat) : Nat := 8 * lanesFlushed c + c.1.byteIndex

theorem lanesFlushed_flushLaneCounted (w : Lane) (c : State × Nat) :
    lanesFlushed (flushLaneCounted w c) = lanesFlushed c + 1 := by
  obtain ⟨-, e⟩ | ⟨heq, e⟩ := flushLaneCounted_cases w c
  · rw [e]
    rfl
  · rw [e]
    calc c.1.cfgRateW * (c.2 + 1) + 0 = c.1.cfgRateW * c.2 + (c.1.wordIndex + 1) := by rw [heq]; rfl

theorem lanesFlushed_flushGroupsCounted (n : Nat) (payload : List Byte) (c : State × Nat) :
    lanesFlushed (flushGroupsCounted n payload c) = lanesFlushed c + n := by
  induction n generalizing payload c with
  | zero => rfl
  | succ n ih =>
    rw [flushGroupsCounted, ih, lanesFlushed_flushLaneCounted]
    omega

theorem lanesFlushed_bufferCounted (vs : List Byte) (c : State × Nat) :
    lanesFlushed (bufferCounted vs c) = lanesFlushed c := by
  rw [lanesFlushed, bufferCounted_fst, bufferCounted_snd, (bufferBytes_frame vs c.1).cfgRateW,
    (bufferBytes_lanes vs c.1).2, lanesFlushed]

theorem bytesTaken_bufferCounted (vs : List Byte) (c : State × Nat) :
    bytesTaken (bufferCounted vs c) = bytesTaken c + vs.length := by
  rw [bytesTaken, lanesFlushed_bufferCounted, bufferCounted_fst, bufferBytes_byteIndex, ← Nat.add_assoc, bytesTaken]

theorem bytesTaken_alignedCounted (payload : List Byte) (c : State × Nat) :
    bytesTaken (alignedCounted payload c) = bytesTaken c + payload.length := by
  rw [alignedCounted, bytesTaken_bufferCounted, bytesTaken, lanesFlushed_flushGroupsCounted, flushGroupsCounted_fst,
    (flushGroups_saved _ _ _).2, List.length_drop, bytesTaken]
  omega

theorem bytesTaken_topOffCounted {payload : List Byte} {c : State × Nat} (h : c.1.byteIndex + payload.length = 8) :
    bytesTaken (topOffCounted payload c) = bytesTaken c + payload.length := by
  have hclear : lanesFlushed (clearSaved (bufferBytes payload c.1), c.2) = lanesFlushed c :=
    lanesFlushed_bufferCounted payload c
  rw [bytesTaken, topOffCounted_fst, (topOff_saved payload c.1).2, topOffCounted, lanesFlushed_flushLaneCounted, hclear,
    bytesTaken]
  omega

theorem bytesTaken_dataCounted (payload : List Byte) {c : State × Nat} (h : c.1.byteIndex < 8) :
    bytesTaken (dataCounted payload c) = bytesTaken c + payload.length := by
  unfold dataCounted
  split_ifs with hpos hlt
  · exact bytesTaken_bufferCounted payload c
  · rw [bytesTaken_alignedCounted, bytesTaken_topOffCounted (by rw [List.length_take]; omega), Nat.add_assoc,
      ← List.length_append, List.take_append_drop]
  · exact bytesTaken_alignedCounted payload c

@[simp] theorem dataCounted_fst (payload : List Byte) (c : State × Nat) :
    (dataCounted payload c).1 = absorbData payload c.1 := by
  unfold dataCounted absorbData
  split_ifs <;> simp

@[simp] theorem absorbCounted_fst (payload : List Byte) (c : State × Nat) :
    (absorbCounted payload c).1 = respond statusOk [] (absorbData payload c.1) := by
  rw [absorbCounted, dataCounted_fst]

theorem bytesTaken_absorbCounted (payload : List Byte) {c : State × Nat} (h : c.1.byteIndex < 8) :
    bytesTaken (absorbCounted payload c) = bytesTaken c + payload.length :=
  bytesTaken_dataCounted payload h

/-- Under R28 and R29 the bytes taken tell the count and the position in the block. -/
theorem count_and_position_of_bytesTaken {c : State × Nat} (hb : c.1.byteIndex < 8)
    (hw : c.1.wordIndex < c.1.cfgRateW) :
    bytesTaken c / (8 * c.1.cfgRateW) = c.2 ∧
      bytesTaken c % (8 * c.1.cfgRateW) = 8 * c.1.wordIndex + c.1.byteIndex := by
  refine (Nat.div_mod_unique (by omega)).mpr ⟨?_, by omega⟩
  rw [bytesTaken, lanesFlushed, Nat.mul_add, Nat.mul_assoc]
  omega

end Sys2Proof.Machine
end

