-- ==== Sys2Proof/Proofs/Blocks.lean ====
section
/-! PROOFS. The closed form of R115: from the start of a block a whole block is one XorBlock and one PERMUTE, and what
is left of the message goes into the lanes and the partial lane without one. -/

namespace Sys2Proof.Machine

/-! ### XorBlock -/

theorem xorBlock_getElem (A : Lanes) (X : List Byte) {i : Nat} (h : i < 25) :
    (xorBlock A X)[i] = if 8 * i + 8 ≤ X.length then A[i] ^^^ memRead X (8 * i) 8 else A[i] := by
  simp [xorBlock]

theorem xorBlock_nil (A : Lanes) : xorBlock A [] = A :=
  Vector.ext fun i hi => by rw [xorBlock_getElem A [] hi, if_neg (by simp)]

theorem memRead_take (X : List Byte) {p n m : Nat} (h : p + n ≤ m) : memRead (X.take m) p n = memRead X p n := by
  rw [memRead, memRead, List.drop_take, List.take_take, Nat.min_eq_left (by omega)]

/-- A block is put word by word. -/
theorem xorLane_xorBlock_take (A : Lanes) {X : List Byte} {n : Nat} (h : 8 * (n + 1) ≤ X.length) :
    xorLane (xorBlock A (X.take (8 * n))) n (memRead X (8 * n) 8) = xorBlock A (X.take (8 * (n + 1))) := by
  refine Vector.ext fun i hi => ?_
  have hshort : (X.take (8 * n)).length = 8 * n := List.length_take_of_le (by omega)
  have hlong : (X.take (8 * (n + 1))).length = 8 * (n + 1) := List.length_take_of_le h
  rw [xorLane_getElem, xorBlock_getElem _ _ hi, xorBlock_getElem _ _ hi, hshort, hlong]
  obtain hlt | rfl | hgt := Nat.lt_trichotomy i n
  · rw [if_neg (by omega), if_pos (by omega), if_pos (by omega), memRead_take _ (by omega),
      memRead_take _ (by omega)]
  · rw [if_pos rfl, if_neg (by omega), if_pos (by omega), memRead_take _ (by omega)]
  · rw [if_neg (by omega), if_neg (by omega), if_neg (by omega)]

/-! ### One block -/

theorem flushGroups_succ (n : Nat) (payload : List Byte) (s : State) :
    flushGroups (n + 1) payload s = flushLane (memRead payload (8 * n) 8) (flushGroups n payload s) := by
  induction n generalizing payload s with
  | zero => rfl
  | succ n ih =>
    rw [flushGroups, ih, memRead_drop, Nat.add_comm 8, flushGroups]
    rfl

/-- Short of the end of the block the whole groups are put from lane 0 on. -/
theorem flushGroups_lanes {n : Nat} {payload : List Byte} {s : State} (hw : s.wordIndex = 0) (hn : n < s.cfgRateW)
    (hlen : 8 * n ≤ payload.length) : (flushGroups n payload s).lanes = xorBlock s.lanes (payload.take (8 * n)) := by
  induction n with
  | zero => exact (xorBlock_nil _).symm
  | succ n ih =>
    have hword := flushGroups_wordIndex n payload s (by omega)
    rw [hw, Nat.zero_add, Nat.mod_eq_of_lt (by omega)] at hword
    have hrate := (flushGroups_frame n payload s).cfgRateW
    rw [flushGroups_succ, flushLane_of_lt _ (by omega), putWord_lanes, hword, ih (by omega) (by omega),
      xorLane_xorBlock_take _ hlen]

/-- At the last rate lane FLUSH_LANE ends the block (R112). -/
theorem flushLane_of_last {s : State} (w : Lane) (h : s.wordIndex + 1 = s.cfgRateW) :
    flushLane w s = rewindWord (permuteLanes (putWord w s)) := by
  obtain ⟨hne, -⟩ | ⟨-, e⟩ := flushLane_cases w s
  · exact absurd h hne
  · exact e

/-- The groups of a whole block are put from lane 0 on, and the lanes are permuted. -/
theorem flushGroups_lanes_of_block {n : Nat} {payload : List Byte} {s : State} (hw : s.wordIndex = 0)
    (hn : s.cfgRateW = n + 1) (hlen : payload.length = 8 * (n + 1)) :
    (flushGroups (n + 1) payload s).lanes = permute (xorBlock s.lanes payload) := by
  have hword := flushGroups_wordIndex n payload s (by omega)
  rw [hw, Nat.zero_add, Nat.mod_eq_of_lt (by omega)] at hword
  have hrate := (flushGroups_frame n payload s).cfgRateW
  rw [flushGroups_succ, flushLane_of_last _ (by omega), rewindWord_lanes, permuteLanes_lanes, putWord_lanes, hword,
    flushGroups_lanes hw (by omega) (by omega), xorLane_xorBlock_take _ hlen.ge, List.take_of_length_le hlen.le]

/-! ### Blocks one after another -/

/-- The state is that after the first `n` blocks of `R` bytes of `M`: their lanes, nothing pending, the next byte the
first of its block (R115). -/
structure AfterBlocks (R : Nat) (M : List Byte) (n : Nat) (s : State) : Prop where
  lanes : s.lanes = blockState R M n
  bufferEmpty : BufferEmpty s
  wordIndex : s.wordIndex = 0
  rate_pos : 0 < s.cfgRateW
  rateBytes_eq : 8 * s.cfgRateW = R

theorem AfterBlocks.absorbBlock {R n : Nat} {M : List Byte} {s : State} (h : AfterBlocks R M n s)
    (hlen : (n + 1) * R ≤ M.length) : AfterBlocks R M (n + 1) (absorbBytes ((M.drop (n * R)).take R) s) := by
  obtain ⟨hlanes, hempty, hw, hpos, hR⟩ := h
  obtain ⟨r, hr⟩ : ∃ r, s.cfgRateW = r + 1 := ⟨s.cfgRateW - 1, by omega⟩
  have hX : ((M.drop (n * R)).take R).length = 8 * (r + 1) := by
    rw [Nat.succ_mul] at hlen
    rw [List.length_take, List.length_drop]
    omega
  have hgroups : ((M.drop (n * R)).take R).length / 8 = r + 1 := by omega
  rw [← absorbAligned_eq_absorbBytes _ hempty]
  refine ⟨?_, ⟨?_, ?_⟩, ?_, ?_, ?_⟩
  · rw [absorbAligned, (bufferBytes_lanes _ _).1, hgroups, flushGroups_lanes_of_block hw hr hX, hlanes, blockState]
  · rw [absorbAligned_saved _ hempty.byteIndex hempty.saved, hgroups, ← hX, List.drop_length]
    rfl
  · rw [absorbAligned_byteIndex, hempty.byteIndex]
    omega
  · rw [absorbAligned_wordIndex _ _ (by omega), hw, hgroups, Nat.zero_add, hr, Nat.mod_self]
  · rwa [(absorbAligned_frame _ s).cfgRateW]
  · rwa [(absorbAligned_frame _ s).cfgRateW]

theorem AfterBlocks.absorbBlocks {R : Nat} {M : List Byte} {s : State} (h : AfterBlocks R M 0 s) {n : Nat}
    (hlen : n * R ≤ M.length) : AfterBlocks R M n (absorbBytes (M.take (n * R)) s) := by
  induction n with
  | zero =>
    rw [Nat.zero_mul]
    exact h
  | succ n ih =>
    have hbefore : n * R ≤ M.length := (Nat.mul_le_mul_right R n.le_succ).trans hlen
    rw [Nat.succ_mul, List.take_add, absorbBytes_append]
    exact (ih hbefore).absorbBlock hlen

theorem length_drop_blocks (R : Nat) (M : List Byte) : (M.drop (M.length / R * R)).length = M.length % R := by
  rw [List.length_drop, Nat.mod_eq_sub_div_mul]

/-- A block is whole lanes, so what is pending after a message is pending after the rest of it. -/
theorem savedAfter_eq (r : Nat) (M : List Byte) :
    savedAfter M = le64 ((M.drop (M.length / (8 * r) * (8 * r))).drop (M.length % (8 * r) / 8 * 8)) := by
  have hwhole : M.length / (8 * r) * (8 * r) = 8 * (M.length / (8 * r) * r) := Nat.mul_left_comm _ _ _
  have hlen := Nat.div_add_mod' M.length (8 * r)
  rw [savedAfter, List.drop_drop]
  congr 2
  omega

/-- The lanes and the partial lane after a message, from those after its whole blocks (R115). -/
theorem AfterBlocks.absorbRest {R : Nat} {M : List Byte} {s : State} (h : AfterBlocks R M (M.length / R) s) :
    (absorbBytes (M.drop (M.length / R * R)) s).lanes = lanesAfter R M ∧
      (absorbBytes (M.drop (M.length / R * R)) s).saved = savedAfter M := by
  obtain ⟨hlanes, hempty, hw, hpos, rfl⟩ := h
  have hrest := length_drop_blocks (8 * s.cfgRateW) M
  have hlt : M.length % (8 * s.cfgRateW) < 8 * s.cfgRateW := Nat.mod_lt _ (by omega)
  rw [← absorbAligned_eq_absorbBytes _ hempty]
  constructor
  · rw [absorbAligned, (bufferBytes_lanes _ _).1, flushGroups_lanes hw (by omega) (by omega), hlanes, hrest,
      Nat.mul_comm 8 (_ / 8)]
    rfl
  · rw [absorbAligned_saved _ hempty.byteIndex hempty.saved, hrest, savedAfter_eq s.cfgRateW, Nat.mul_comm 8 (_ / 8)]

/-- The closed form of R115 for a message absorbed byte by byte. -/
theorem AfterBlocks.absorbBytes_closedForm {R : Nat} {M : List Byte} {s : State} (h : AfterBlocks R M 0 s) :
    (absorbBytes M s).lanes = lanesAfter R M ∧ (absorbBytes M s).saved = savedAfter M := by
  have hrest := (h.absorbBlocks (Nat.div_mul_le_self M.length R)).absorbRest
  rwa [← absorbBytes_append, List.take_append_drop] at hrest

end Sys2Proof.Machine
end

