-- ==== Sys2Proof/Proofs/Padding.lean ====
section
/-! PROOFS. The two XORs of FINALIZE put the padding bytes of R124 where R54 puts the bytes of a message: byte by byte
the padded block is the XOR of the rest of the message, the suffix and the terminator (R116, R117). -/

namespace Sys2Proof.Machine

/-! ### Bytes of a lane, beyond the end of the bytes too -/

theorem lane_eq_of_laneByte_eq {v w : Lane} (h : ∀ j, j < 8 → laneByte v j = laneByte w j) : v = w := by
  refine BitVec.eq_of_getLsbD_eq fun i hi => ?_
  have hbit := congrArg (BitVec.getLsbD · (i % 8)) (h (i / 8) (by omega))
  have hlt : i % 8 < 8 := Nat.mod_lt _ (by decide)
  simpa [laneByte, hlt, Nat.div_add_mod] using hbit

theorem laneByte_zero (j : Nat) : laneByte 0#64 j = 0#8 := by
  simp [laneByte]

/-- Past its bytes a little-endian value is zero (R51). -/
theorem laneByte_le64_getD (vs : List Byte) {j : Nat} (hj : j < 8) : laneByte (le64 vs) j = vs.getD j 0#8 := by
  induction vs generalizing j with
  | nil => exact laneByte_zero j
  | cons v vs ih =>
    cases j with
    | zero => exact laneByte_le64_cons_zero v vs
    | succ j => exact (laneByte_le64_cons_succ v vs hj).trans (ih (by omega))

theorem laneByte_memRead_getD (X : List Byte) (p : Nat) {j : Nat} (hj : j < 8) :
    laneByte (memRead X p 8) j = X.getD (p + j) 0#8 := by
  rw [memRead, laneByte_le64_getD _ hj, List.getD_eq_getElem?_getD, List.getElem?_take_of_lt hj, List.getElem?_drop,
    List.getD_eq_getElem?_getD]

/-- One byte shifted into byte `n` of a lane. -/
theorem laneByte_zext64_shiftLeft (v : Byte) {n j : Nat} (hj : j < 8) :
    laneByte (zext64 v <<< (8 * n)) j = if j = n then v else 0#8 := by
  refine BitVec.eq_of_getLsbD_eq fun i hi => ?_
  have hlt : 8 * j + i < 64 := by omega
  obtain h | rfl | h := Nat.lt_trichotomy j n
  · have hbelow : 8 * j + i < 8 * n := by omega
    simp [laneByte, zext64, hi, h.ne, hbelow]
  · simp [laneByte, zext64, hi, hlt]
  · have habove : v.getLsbD (8 * j + i - 8 * n) = false := BitVec.getLsbD_of_ge _ _ (by omega)
    simp [laneByte, zext64, hi, h.ne', habove]

/-! ### The padding bytes -/

theorem suffixByte_eq (k : PadRule) : suffixByte k = zext64 (padByte k) := by
  cases k <;> rfl

theorem laneByte_suffixValue (k : PadRule) {n j : Nat} (hj : j < 8) :
    laneByte (suffixValue k n) j = if j = n then padByte k else 0#8 := by
  rw [suffixValue, suffixByte_eq, laneByte_zext64_shiftLeft _ hj]

theorem laneByte_terminator {j : Nat} (hj : j < 8) : laneByte terminator j = if j = 7 then 0x80 else 0#8 :=
  laneByte_zext64_shiftLeft 0x80 hj (n := 7)

/-- The padding is its first byte and its last byte, which XOR, like the OR of R124, joins in a padding of one byte. -/
theorem padding_getD (k : PadRule) {q i : Nat} (h : i < q) :
    (padding k q).getD i 0#8 = (if i = 0 then padByte k else 0#8) ^^^ (if i + 1 = q then 0x80 else 0#8) := by
  by_cases hq : q = 1
  · obtain rfl : i = 0 := by omega
    subst hq
    cases k <;> rfl
  · rw [padding, if_neg hq]
    cases i with
    | zero => simp [Ne.symm hq]
    | succ i =>
      rw [List.getD_cons_succ, if_neg i.succ_ne_zero, BitVec.zero_xor]
      by_cases hlast : i + 2 = q
      · rw [List.getD_append_right _ _ _ _ (by rw [List.length_replicate]; omega), if_pos hlast]
        simp [← hlast]
      · rw [List.getD_append _ _ _ _ (by rw [List.length_replicate]; omega), if_neg hlast]
        simp

theorem padding_length (k : PadRule) {q : Nat} (h : 0 < q) : (padding k q).length = q := by
  unfold padding
  split_ifs with hq
  · exact hq.symm
  · rw [List.length_cons, List.length_append, List.length_replicate, List.length_singleton]
    omega

/-! ### The padded block -/

/-- A word of the padded rest of a message: the rest's own bytes, and in two lanes the suffix and the terminator. -/
theorem memRead_append_padding (k : PadRule) {X : List Byte} {r i : Nat} (hX : X.length < 8 * r) (hi : i < r) :
    memRead (X ++ padding k (8 * r - X.length)) (8 * i) 8 =
      memRead X (8 * i) 8 ^^^ (if X.length / 8 = i then suffixValue k (X.length % 8) else 0#64) ^^^
        (if r - 1 = i then terminator else 0#64) := by
  refine lane_eq_of_laneByte_eq fun j hj => ?_
  rw [laneByte_xor, laneByte_xor, laneByte_memRead_getD _ _ hj, laneByte_memRead_getD _ _ hj, apply_ite (laneByte · j),
    apply_ite (laneByte · j), laneByte_suffixValue k hj, laneByte_terminator hj, laneByte_zero]
  have hsuffix : X.length / 8 = i ∧ j = X.length % 8 ↔ 8 * i + j = X.length := by omega
  have hterminator : r - 1 = i ∧ j = 7 ↔ 8 * i + j + 1 = 8 * r := by omega
  simp only [← ite_and, hsuffix, hterminator]
  by_cases hlt : 8 * i + j < X.length
  · rw [List.getD_append _ _ _ _ hlt, if_neg (by omega), if_neg (by omega), BitVec.xor_zero, BitVec.xor_zero]
  · have hfirst : 8 * i + j - X.length = 0 ↔ 8 * i + j = X.length := by omega
    have hlast : 8 * i + j - X.length + 1 = 8 * r - X.length ↔ 8 * i + j + 1 = 8 * r := by omega
    rw [List.getD_append_right _ _ _ _ (by omega), padding_getD k (by omega), List.getD_eq_default _ _ (by omega),
      BitVec.zero_xor]
    simp only [hfirst, hlast]

/-- A lane of `xorLane` as one XOR. -/
theorem xorLane_getElem_eq_xor (A : Lanes) (i : Nat) (w : Lane) {j : Nat} (hj : j < 25) :
    (xorLane A i w)[j] = A[j] ^^^ (if i = j then w else 0#64) := by
  rw [xorLane_getElem]
  split_ifs
  · rfl
  · rw [BitVec.xor_zero]

theorem memRead_of_length_le {X : List Byte} {p : Nat} (h : X.length ≤ p) : memRead X p 8 = 0#64 := by
  rw [memRead, List.drop_of_length_le h]
  rfl

/-- What FINALIZE XORs into the lanes completes the block with its padding (R116, R124). -/
theorem xorLane_suffix_terminator (A : Lanes) (k : PadRule) {X : List Byte} {r : Nat} (hr : r ≤ 25)
    (hX : X.length < 8 * r) :
    xorLane (xorLane (xorBlock A (X.take (X.length / 8 * 8))) (X.length / 8)
        (le64 (X.drop (X.length / 8 * 8)) ^^^ suffixValue k (X.length % 8))) (r - 1) terminator =
      xorBlock A (X ++ padding k (8 * r - X.length)) := by
  refine Vector.ext fun i hi => ?_
  have htake : (X.take (X.length / 8 * 8)).length = X.length / 8 * 8 := List.length_take_of_le (by omega)
  have hblock : (X ++ padding k (8 * r - X.length)).length = 8 * r := by
    rw [List.length_append, padding_length k (by omega)]
    omega
  have hpending : le64 (X.drop (X.length / 8 * 8)) = memRead X (8 * (X.length / 8)) 8 := by
    rw [memRead, Nat.mul_comm, List.take_of_length_le]
    rw [List.length_drop]
    omega
  rw [xorLane_getElem_eq_xor _ _ _ hi, xorLane_getElem_eq_xor _ _ _ hi, xorBlock_getElem _ _ hi,
    xorBlock_getElem _ _ hi, htake, hblock, hpending]
  by_cases hrate : i < r
  · rw [memRead_append_padding k hX hrate, if_pos (by omega : 8 * i + 8 ≤ 8 * r)]
    obtain hlt | rfl | hgt := Nat.lt_trichotomy i (X.length / 8)
    · rw [if_pos (by omega), memRead_take _ (by omega), if_neg hlt.ne', if_neg hlt.ne']
      simp only [BitVec.xor_assoc, BitVec.xor_zero]
    · rw [if_neg (by omega), if_pos rfl, if_pos rfl]
      simp only [BitVec.xor_assoc]
    · rw [if_neg (by omega), if_neg hgt.ne, if_neg hgt.ne, memRead_of_length_le (by omega)]
      simp only [BitVec.xor_zero, BitVec.zero_xor]
  · rw [if_neg (by omega), if_neg (by omega), if_neg (by omega), if_neg (by omega), BitVec.xor_zero, BitVec.xor_zero]

theorem blockState_append (R : Nat) {M : List Byte} (P : List Byte) {n : Nat} (h : n * R ≤ M.length) :
    blockState R (M ++ P) n = blockState R M n := by
  induction n with
  | zero => rfl
  | succ n ih =>
    rw [Nat.succ_mul] at h
    rw [blockState, ih (by omega), List.drop_append_of_le_length (by omega),
      List.take_append_of_le_length (by rw [List.length_drop]; omega), blockState]

/-- The last block of the padded message is what is left of the message and the padding (R124). -/
theorem finalLanes_eq {b : Nat} (k : PadRule) (M : List Byte) (hR : 0 < rateBytes b) :
    finalLanes b k M =
      permute (xorBlock (blockState (rateBytes b) M (M.length / rateBytes b))
        (M.drop (M.length / rateBytes b * rateBytes b) ++
          padding k (rateBytes b - M.length % rateBytes b))) := by
  have hwhole := Nat.div_mul_le_self M.length (rateBytes b)
  have hlt := Nat.mod_lt M.length hR
  rw [finalLanes, paddedMessage, blockState, blockState_append _ _ hwhole, List.drop_append_of_le_length hwhole,
    List.take_of_length_le]
  rw [List.length_append, List.length_drop, padding_length k (by omega), ← Nat.mod_eq_sub_div_mul]
  omega

/-! ### Which padding it was -/

/-- The bytes above those a lane fills are zero. -/
theorem laneByte_of_ushiftRight_eq_zero {v : Lane} {n j : Nat} (h : v >>> (8 * n) = 0#64) (hj : n ≤ j) :
    laneByte v j = 0#8 := by
  refine BitVec.eq_of_getLsbD_eq fun i hi => ?_
  have hbit := congrArg (BitVec.getLsbD · (8 * (j - n) + i)) h
  have hpos : 8 * n + (8 * (j - n) + i) = 8 * j + i := by omega
  simpa [laneByte, hi, hpos] using hbit

/-- The two suffixes differ in their one byte. -/
theorem suffixValue_sha3_ne_keccak {n : Nat} (hn : n < 8) : suffixValue .sha3 n ≠ suffixValue .keccak n := by
  intro h
  have hbyte := congrArg (laneByte · n) h
  simp only [laneByte_suffixValue _ hn, if_true] at hbyte
  exact absurd hbyte (by decide)

/-- The output image tells every lane. -/
theorem outImage_injective : Function.Injective outImage := by
  intro A B h
  refine Vector.ext fun i hi => lane_eq_of_laneByte_eq fun j hj => ?_
  have hbyte := List.map_inj_left.mp h ⟨i * 8 + j, by omega⟩ (List.mem_finRange _)
  rwa [outByte_of_lane A ⟨i, hi⟩ ⟨j, hj⟩, outByte_of_lane B ⟨i, hi⟩ ⟨j, hj⟩] at hbyte

end Sys2Proof.Machine
end

