-- ==== Sys2Proof/Proofs/InstanceRuns.lean ====
section
/-! PROOFS. A whole run of commands: NEW, ABSORBs in any chunking, FINALIZE (R115, R119, R123, R124). The responses to the
ABSORBs are all that tells one chunking from another. -/

namespace Sys2Proof.Machine

/-! ### The response channel and the byte form -/

/-- The state with another response channel. -/
def withResponses (rs : List Response) (s : State) : State := { s with responses := rs }

theorem withResponses_commutesWithData (rs : List Response) : CommutesWithData (withResponses rs) :=
  ⟨fun _ => rfl, fun _ => rfl, fun _ => rfl, fun _ => rfl, fun _ _ => rfl, fun _ => rfl, fun _ _ => rfl, fun _ => rfl,
    fun _ => rfl⟩

theorem CommutesWithData.absorbBytes {g : State → State} (hg : CommutesWithData g) (bytes : List Byte) (s : State) :
    absorbBytes bytes (g s) = g (absorbBytes bytes s) := by
  induction bytes generalizing s with
  | nil => rfl
  | cons v vs ih =>
    have hbyte : absorbByte (g s) v = g (absorbByte s v) := by
      simp only [absorbByte, hg.bufferByte, hg.byteIndex, hg.saved, hg.clearSaved, hg.flushLane, apply_ite g]
    exact (congrArg (Machine.absorbBytes vs) hbyte).trans (ih _)

/-! ### Several ABSORBs -/

/-- ABSORB and FINALIZE pass their checks (R142, R144). -/
structure InInstance (s : State) : Prop where
  phase : s.phase = .absorbing
  invariants : invariantsHold s = true

theorem InInstance.absorbData_eq {s : State} (h : InInstance s) (payload : List Byte) :
    absorbData payload s = absorbBytes payload s :=
  have ⟨hb, _, hs, _⟩ := (invariantsHold_iff s).mp h.invariants
  absorbData_eq_absorbBytes payload hb hs

theorem InInstance.after_absorbCounted {c : State × Nat} (h : InInstance c.1) (payload : List Byte) :
    InInstance (absorbCounted payload c).1 := by
  rw [absorbCounted_fst]
  exact ⟨(absorbData_frame payload c.1).phase.trans h.phase, absorbData_invariantsHold payload h.invariants⟩

theorem absorbsCounted_cons (chunk : List Byte) (chunks : List (List Byte)) (c : State × Nat) :
    absorbsCounted (chunk :: chunks) c = absorbsCounted chunks (absorbCounted chunk c) := rfl

/-- Up to the responses the chunks do what their bytes do in one sequence. -/
theorem InInstance.exists_absorbsCounted_fst_eq {c : State × Nat} (h : InInstance c.1) (chunks : List (List Byte)) :
    ∃ rs, (absorbsCounted chunks c).1 = withResponses rs (absorbBytes chunks.flatten c.1) := by
  induction chunks generalizing c with
  | nil => exact ⟨c.1.responses, rfl⟩
  | cons chunk chunks ih =>
    obtain ⟨rs, hrs⟩ := ih (h.after_absorbCounted chunk)
    refine ⟨rs, ?_⟩
    have hfirst : (absorbCounted chunk c).1 =
        withResponses ((absorbBytes chunk c.1).responses ++ [⟨statusOk, []⟩]) (absorbBytes chunk c.1) := by
      rw [absorbCounted_fst, h.absorbData_eq]
      rfl
    rw [absorbsCounted_cons, hrs, hfirst, (withResponses_commutesWithData _).absorbBytes, List.flatten_cons,
      absorbBytes_append]
    rfl

theorem InInstance.bytesTaken_absorbsCounted {c : State × Nat} (h : InInstance c.1) (chunks : List (List Byte)) :
    bytesTaken (absorbsCounted chunks c) = bytesTaken c + chunks.flatten.length := by
  induction chunks generalizing c with
  | nil => rfl
  | cons chunk chunks ih =>
    obtain ⟨hb, -⟩ := (invariantsHold_iff c.1).mp h.invariants
    rw [absorbsCounted_cons, ih (h.after_absorbCounted chunk), bytesTaken_absorbCounted chunk hb, List.flatten_cons,
      List.length_append, Nat.add_assoc]

/-! ### NEW and the message -/

/-- NEW and the ABSORBs after it, counted from 0. -/
def instanceCounted (b : Nat) (k : PadRule) (chunks : List (List Byte)) (s : State) : State × Nat :=
  absorbsCounted chunks (newCounted b k (s, 0))

/-- `t` is what a NEW of `b` and `k` in `s` leads to when the message `M` has been absorbed, in the closed form of
R115. -/
structure AfterMessage (b : Nat) (k : PadRule) (M : List Byte) (s t : State) : Prop where
  inInstance : InInstance t
  cfgB : t.cfgB = b
  cfgRateW : t.cfgRateW = rateWords b
  cfgRule : t.cfgRule = k
  fault : t.fault = s.fault
  lanes : t.lanes = lanesAfter (rateBytes b) M
  saved : t.saved = savedAfter M
  byteIndex : t.byteIndex = M.length % 8
  wordIndex : t.wordIndex = M.length % rateBytes b / 8

theorem AfterMessage.withResponses {b : Nat} {k : PadRule} {M : List Byte} {s t : State} (h : AfterMessage b k M s t)
    (rs : List Response) : AfterMessage b k M s (withResponses rs t) :=
  ⟨⟨h.inInstance.phase, h.inInstance.invariants⟩, h.cfgB, h.cfgRateW, h.cfgRule, h.fault, h.lanes, h.saved, h.byteIndex,
    h.wordIndex⟩

theorem rateWords_bounds {b : Nat} (h : legalWidth b = true) : 0 < rateWords b ∧ rateWords b ≤ 25 := by
  obtain rfl | rfl | rfl := (legalWidth_iff b).mp h <;> decide

theorem newCounted_inInstance {b : Nat} (k : PadRule) (s : State) (h : legalWidth b = true) :
    InInstance (newCounted b k (s, 0)).1 :=
  ⟨rfl, startInstance_invariantsHold k s h⟩

theorem startInstance_afterBlocks {b : Nat} (k : PadRule) (M : List Byte) (s : State) (h : legalWidth b = true) :
    AfterBlocks (rateBytes b) M 0 (startInstance b k s) :=
  ⟨rfl, ⟨rfl, rfl⟩, rfl, (rateWords_bounds h).1, rfl⟩

theorem startInstance_afterMessage {b : Nat} (k : PadRule) (M : List Byte) (s : State) (h : legalWidth b = true) :
    AfterMessage b k M s (absorbBytes M (startInstance b k s)) := by
  have hin : InInstance (startInstance b k s) := ⟨rfl, startInstance_invariantsHold k s h⟩
  obtain ⟨hlanes, hsaved⟩ := (startInstance_afterBlocks k M s h).absorbBytes_closedForm
  rw [← hin.absorbData_eq] at hlanes hsaved ⊢
  have f := absorbData_frame M (startInstance b k s)
  refine ⟨⟨f.phase, absorbData_invariantsHold M hin.invariants⟩, f.cfgB, f.cfgRateW, f.cfgRule, f.fault, hlanes, hsaved,
    ?_, ?_⟩
  · rw [absorbData_byteIndex M _ (Nat.zero_lt_succ 7), startInstance_byteIndex, Nat.zero_add]
  · rw [absorbData_wordIndex M _ (Nat.zero_lt_succ 7) (rateWords_bounds h).1, startInstance_byteIndex,
      startInstance_wordIndex, Nat.zero_add, Nat.zero_add, rateBytes, Nat.mod_mul_right_div_self]
    rfl

theorem instanceCounted_afterMessage {b : Nat} (k : PadRule) (chunks : List (List Byte)) (s : State)
    (h : legalWidth b = true) : AfterMessage b k chunks.flatten s (instanceCounted b k chunks s).1 := by
  obtain ⟨rs, hrs⟩ := (newCounted_inInstance k s h).exists_absorbsCounted_fst_eq chunks
  have hstart : (newCounted b k (s, 0)).1 =
      withResponses (s.responses ++ [⟨statusOk, []⟩]) (startInstance b k s) := rfl
  rw [instanceCounted, hrs, hstart, (withResponses_commutesWithData _).absorbBytes]
  exact ((startInstance_afterMessage k chunks.flatten s h).withResponses _).withResponses rs

theorem bytesTaken_instanceCounted {b : Nat} (k : PadRule) (chunks : List (List Byte)) (s : State)
    (h : legalWidth b = true) : bytesTaken (instanceCounted b k chunks s) = chunks.flatten.length := by
  have hnew : bytesTaken (newCounted b k (s, 0)) = 0 := rfl
  rw [instanceCounted, (newCounted_inInstance k s h).bytesTaken_absorbsCounted, hnew, Nat.zero_add]

/-- The count of the whole message and its position in the block (R115). -/
theorem instanceCounted_count_and_position {b : Nat} (k : PadRule) (chunks : List (List Byte)) (s : State)
    (h : legalWidth b = true) :
    chunks.flatten.length / rateBytes b = (instanceCounted b k chunks s).2 ∧
      chunks.flatten.length % rateBytes b =
        8 * (instanceCounted b k chunks s).1.wordIndex + (instanceCounted b k chunks s).1.byteIndex := by
  have hm := instanceCounted_afterMessage k chunks s h
  obtain ⟨hb, hw, -, -⟩ := (invariantsHold_iff _).mp hm.inInstance.invariants
  have hcount := count_and_position_of_bytesTaken hb hw
  rwa [bytesTaken_instanceCounted k chunks s h, hm.cfgRateW] at hcount

/-! ### FINALIZE -/

/-- FINALIZE that passes its checks pads, permutes and answers (R116). -/
theorem exec_finalize_of_inInstance {s : State} (h : InInstance s) :
    exec .finalize s =
      .next (respond statusOk (outImage (permuteLanes (padLanes s)).lanes)
        (endInstance (permuteLanes (padLanes s)))) := by
  obtain ⟨hp, -⟩ | ⟨-, hi, -⟩ | ⟨-, -, e⟩ := execFinalize_cases s
  · exact absurd h.phase hp
  · rw [h.invariants] at hi
    cases hi
  · exact e

/-- FINALIZE leaves the lanes of the padded message (R124). -/
theorem AfterMessage.permute_padLanes {b : Nat} {k : PadRule} {M : List Byte} {s t : State}
    (h : AfterMessage b k M s t) (hb : legalWidth b = true) : permute (padLanes t).lanes = finalLanes b k M := by
  obtain ⟨hpos, hle⟩ := rateWords_bounds hb
  have hlen : (M.drop (M.length / rateBytes b * rateBytes b)).length = M.length % rateBytes b := length_drop_blocks _ M
  have hlt : M.length % rateBytes b < 8 * rateWords b := Nat.mod_lt _ (Nat.mul_pos (by decide) hpos)
  have hpad := xorLane_suffix_terminator (blockState (rateBytes b) M (M.length / rateBytes b)) k hle (hlen.trans_lt hlt)
  have hsaved : t.saved =
      le64 ((M.drop (M.length / rateBytes b * rateBytes b)).drop (M.length % rateBytes b / 8 * 8)) :=
    h.saved.trans (savedAfter_eq (rateWords b) M)
  have hbyte : t.byteIndex = M.length % rateBytes b % 8 := h.byteIndex.trans (Nat.mod_mul_right_mod _ _ _).symm
  rw [hlen] at hpad
  rw [finalLanes_eq k M (Nat.mul_pos (by decide) hpos), padLanes_lanes, h.lanes, hsaved, hbyte, h.wordIndex, h.cfgRule,
    h.cfgRateW, lanesAfter, hpad]
  rfl

/-! ### Runs -/

@[simp] theorem lastStatus_respond (status : Byte) (data : List Byte) (s : State) :
    lastStatus (respond status data s) = status := by
  simp [lastStatus]

@[simp] theorem lastData_respond (status : Byte) (data : List Byte) (s : State) :
    lastData (respond status data s) = data := by
  simp [lastData]

theorem lastStatus_finalizeCounted (c : State × Nat) : lastStatus (finalizeCounted c).1 = statusOk :=
  lastStatus_respond _ _ _

/-- The response to FINALIZE carries the image of the padded message's lanes. -/
theorem AfterMessage.lastData_finalizeCounted {b : Nat} {k : PadRule} {M : List Byte} {s : State} {c : State × Nat}
    (h : AfterMessage b k M s c.1) (hb : legalWidth b = true) :
    lastData (finalizeCounted c).1 = outImage (finalLanes b k M) :=
  (lastData_respond _ _ _).trans (congrArg outImage (h.permute_padLanes hb))

/-- Its digest window is the digest of the message (R53, R124). -/
theorem AfterMessage.digestWindow_finalizeCounted {b : Nat} {k : PadRule} {M : List Byte} {s : State} {c : State × Nat}
    (h : AfterMessage b k M s c.1) (hb : legalWidth b = true) :
    digestWindow (finalizeCounted c).1.cfgB (lastData (finalizeCounted c).1) = messageDigest M b k := by
  have hB : (finalizeCounted c).1.cfgB = b := h.cfgB
  rw [hB, h.lastData_finalizeCounted hb, messageDigest]

theorem runCommands_cons {i : Instr} {s t : State} (rest : List Instr) (h : exec i s = .next t)
    (hok : lastStatus t = statusOk) : runCommands (i :: rest) s = runCommands rest t := by
  rw [runCommands, h]
  exact if_pos hok

theorem runCommands_absorbs {c : State × Nat} (h : InInstance c.1) (chunks : List (List Byte)) (rest : List Instr) :
    runCommands (chunks.map .absorb ++ rest) c.1 = runCommands rest (absorbsCounted chunks c).1 := by
  induction chunks generalizing c with
  | nil => rfl
  | cons chunk chunks ih =>
    have hexec : exec (.absorb chunk) c.1 = .next (absorbCounted chunk c).1 := by
      rw [exec_absorb_of_invariants chunk h.phase h.invariants, absorbCounted_fst]
    have hok : lastStatus (absorbCounted chunk c).1 = statusOk := lastStatus_respond _ _ _
    exact (runCommands_cons _ hexec hok).trans (ih (h.after_absorbCounted chunk))

/-- NEW of a legal width and ABSORBs complete, and the run goes on where the counted one stands. -/
theorem runCommands_new_absorbs {b : Nat} (k : PadRule) (chunks : List (List Byte)) (rest : List Instr) (s : State)
    (h : legalWidth b = true) :
    runCommands (.new b k :: (chunks.map .absorb ++ rest)) s = runCommands rest (instanceCounted b k chunks s).1 := by
  have hexec : exec (.new b k) s = .next (newCounted b k (s, 0)).1 := if_pos h
  have hok : lastStatus (newCounted b k (s, 0)).1 = statusOk := lastStatus_respond _ _ _
  exact (runCommands_cons _ hexec hok).trans (runCommands_absorbs (newCounted_inInstance k s h) chunks rest)

/-- NEW, the ABSORBs and FINALIZE complete, in the state of the counted run. -/
theorem runCommands_new_absorbs_finalize {b : Nat} (k : PadRule) (chunks : List (List Byte)) (s : State)
    (h : legalWidth b = true) :
    runCommands (.new b k :: (chunks.map .absorb ++ [.finalize])) s =
      .next (finalizeCounted (instanceCounted b k chunks s)).1 := by
  have hfinalize := exec_finalize_of_inInstance (instanceCounted_afterMessage k chunks s h).inInstance
  exact (runCommands_new_absorbs k chunks _ s h).trans (runCommands_cons [] hfinalize (lastStatus_finalizeCounted _))

/-! ### HASH -/

theorem runHash_of_runCommands {bytes : List Byte} {b : Nat} {k : PadRule} {s t : State}
    (h : runCommands (hashCommands bytes b k) s = .next t) : runHash bytes b k s = .next (t, hashResult t) := by
  rw [runHash, h]

theorem hashResult_of_ok {t : State} (h : lastStatus t = statusOk) :
    hashResult t = .digest (digestWindow t.cfgB (lastData t)) := if_pos h

/-- A run stops at the first command that takes an exception (R80). -/
theorem runCommands_of_takeException {i : Instr} {s : State} {e : Exc} (rest : List Instr)
    (h : exec i s = .next (takeException e s)) : runCommands (i :: rest) s = .next (takeException e s) := by
  have hfault : lastStatus (takeException e s) ≠ statusOk := by
    rw [takeException, lastStatus_respond]
    exact (excStatus_bounds e).1
  rw [runCommands, h]
  exact if_neg hfault

theorem hashResult_takeException (e : Exc) (s : State) : hashResult (takeException e s) = .error (excStatus e) := by
  rw [hashResult, takeException, lastStatus_respond]
  exact if_neg (excStatus_bounds e).1

end Sys2Proof.Machine
end

