-- ==== Sys2Proof/Proofs/SpongeCommands.lean ====
section
/-! PROOFS. The statements of 41_sponge.md about one command at a time. -/

namespace Sys2Proof.Machine

/-! ### NEW and ABSORB -/

/-- Settles O11: the two answers of NEW, with the derived configuration written out. -/
theorem newStartsAFreshInstance : Obligations.NewStartsAFreshInstance := by
  intro s b k
  obtain ⟨hb, h⟩ | ⟨hb, h⟩ := execNew_cases b k s
  · have hlegal := (legalWidth_iff b).mp hb
    exact ⟨fun _ => h, fun h256 h384 h512 => by omega⟩
  · have hillegal : ¬(b = 256 ∨ b = 384 ∨ b = 512) := by simp [← legalWidth_iff, hb]
    exact ⟨fun hlegal => absurd hlegal hillegal, fun _ _ _ => h⟩

/-- Settles O14: the array is the one the first half of FLUSH_LANE leaves; its second half goes by the lane index. -/
theorem flushLaneRule : Obligations.FlushLaneRule := by
  intro s w _ _
  refine ⟨xorLane s.lanes s.wordIndex w, fun i hi => ?_, ?_⟩
  · rw [xorLane_getElem]
    exact if_congr eq_comm rfl rfl
  · obtain ⟨hne, h⟩ | ⟨heq, h⟩ := flushLane_cases w s
    · rw [h, if_neg hne]
      rfl
    · rw [h, if_pos heq]
      rfl

/-- Settles O16: ABSORB passes its checks, and its paths are cuts of the byte-at-a-time form. -/
theorem absorbIsByteAtATime : Obligations.AbsorbIsByteAtATime := by
  intro s payload hp hi
  obtain ⟨hb, -, hs, -⟩ := (invariantsHold_iff s).mp hi
  rw [exec_absorb_of_invariants payload hp hi, absorbData_eq_absorbBytes payload hb hs]
  rfl

/-- Settles O17: a short chunk only buffers; a chunk that completes the lane is a cut after the completing byte. -/
theorem absorbFollowsItsSteps : Obligations.AbsorbFollowsItsSteps := by
  intro s payload hp hi
  obtain ⟨hb, -, hs, -⟩ := (invariantsHold_iff s).mp hi
  refine ⟨exec_absorb_of_invariants payload hp hi, fun hlt => ?_, fun head rest heq hlen => ?_⟩
  · rw [absorbData_eq_absorbBytes payload hb hs, absorbBytes_of_lt hlt, bufferBytes_eq, bufferBytes_saved,
      bufferBytes_byteIndex]
  · rw [heq, absorbData_append_of_fill rest hb hs hlen, topOff_eq]
    rfl

/-- Settles O18: no byte is absorbed one at a time. -/
theorem absorbOfNoBytes : Obligations.AbsorbOfNoBytes := fun s hp hi => absorbIsByteAtATime s [] hp hi

/-- Settles O19: an exception writes the record and the response, absorbing data stays off its frame. -/
theorem absorbFrame : Obligations.AbsorbFrame := by
  intro s t payload h
  obtain ⟨hp, g⟩ | ⟨hp, hi, g⟩ | ⟨hp, hi, g⟩ := execAbsorb_cases payload s <;> cases h.symm.trans g
  · exact ⟨rfl, rfl, rfl, rfl, rfl, rfl, ⟨_, rfl⟩, fun hp' => absurd hp' hp, fun _ => ⟨rfl, rfl, rfl, rfl⟩⟩
  · exact ⟨rfl, rfl, rfl, rfl, rfl, rfl, ⟨_, rfl⟩, fun _ hi' => absurd hi' (by simp [hi]),
      fun _ => ⟨rfl, rfl, rfl, rfl⟩⟩
  · have f := absorbData_frame payload s
    refine ⟨f.cfgB, f.cfgCapW, f.cfgRateW, f.cfgRule, f.phase, f.input, ⟨statusOk, ?_⟩, fun _ _ => f.fault,
      fun hfaults => ?_⟩
    · rw [respond_responses, f.responses]
    · simp [hp, hi] at hfaults

/-- Settles O23: from count 0 the bytes taken are those before the payload in its block and the payload. -/
theorem absorbPermutationCount : Obligations.AbsorbPermutationCount := by
  intro s payload hp hi
  obtain ⟨hb, -, -, -⟩ := (invariantsHold_iff s).mp hi
  obtain ⟨hb', hw', -, -⟩ := (invariantsHold_iff _).mp (absorbData_invariantsHold payload hi)
  have hstate : (absorbCounted payload (s, 0)).1 = respond statusOk [] (absorbData payload s) :=
    absorbCounted_fst payload (s, 0)
  refine ⟨_, (absorbCounted payload (s, 0)).2, Prod.ext hstate rfl, exec_absorb_of_invariants payload hp hi, ?_⟩
  have htaken : bytesTaken (absorbCounted payload (s, 0)) = 8 * s.wordIndex + s.byteIndex + payload.length := by
    rw [bytesTaken_absorbCounted payload hb, bytesTaken, lanesFlushed, Nat.mul_zero, Nat.zero_add]
  obtain ⟨hcount, -⟩ := count_and_position_of_bytesTaken (c := absorbCounted payload (s, 0))
    (by rwa [hstate]) (by rwa [hstate])
  rw [← hcount, htaken, hstate, respond_cfgRateW, (absorbData_frame payload s).cfgRateW]

/-! ### FINALIZE -/

/-- Settles O28: an exception writes the record and the response, finalizing the lanes, the phase and the response. -/
theorem finalizeFrame : Obligations.FinalizeFrame := by
  intro s t h
  obtain ⟨hp, g⟩ | ⟨hp, hi, g⟩ | ⟨hp, hi, g⟩ := execFinalize_cases s <;> cases h.symm.trans g
  · exact ⟨rfl, rfl, rfl, rfl, rfl, rfl, rfl, rfl, ⟨_, rfl⟩, fun hp' => absurd hp' hp, fun _ => ⟨rfl, rfl⟩⟩
  · exact ⟨rfl, rfl, rfl, rfl, rfl, rfl, rfl, rfl, ⟨_, rfl⟩, fun _ hi' => absurd hi' (by simp [hi]),
      fun _ => ⟨rfl, rfl⟩⟩
  · exact ⟨rfl, rfl, rfl, rfl, rfl, rfl, rfl, rfl, ⟨_, rfl⟩, fun _ _ => rfl, fun hfaults => by
      simp [hp, hi] at hfaults⟩

/-- Settles O26: the array is the one the two XORs leave; outside phase Absorbing the first check fails. -/
theorem finalizePadsPermutesAndAnswers : Obligations.FinalizePadsPermutesAndAnswers := by
  intro s
  refine ⟨fun hp hi => ⟨(padLanes s).lanes, fun i h => ?_, exec_finalize_of_inInstance ⟨hp, hi⟩⟩, fun hp => ?_⟩
  · have hsuffix : suffixValue s.cfgRule s.byteIndex =
        (if s.cfgRule = .keccak then 0x01#64 else 0x06#64) <<< (8 * s.byteIndex) := by
      cases hk : s.cfgRule <;> rfl
    rw [padLanes_lanes, xorLane_getElem_eq_xor _ _ _ h, xorLane_getElem_eq_xor _ _ _ h, hsuffix]
    simp only [eq_comm (a := i)]
    rfl
  · obtain ⟨-, h⟩ | ⟨hp', -⟩ | ⟨hp', -⟩ := execFinalize_cases s
    · exact h
    · exact absurd hp' hp
    · exact absurd hp' hp

/-- Settles O27: the two positions by arithmetic; each lane is read off the two XORs, and a byte of it is the XOR of
the bytes, of which the partial lane has none at byte 7 yet. -/
theorem suffixAndTerminatorCompose : Obligations.SuffixAndTerminatorCompose := by
  intro s hp hi
  obtain ⟨hb, hw, hunfilled, -⟩ := (invariantsHold_iff s).mp hi
  refine ⟨by omega, by omega, fun h25 hr25 => ⟨fun hlast => ?_, fun hother => ?_⟩⟩
  · have hlane : (padLanes s).lanes[s.wordIndex] =
        s.lanes[s.wordIndex] ^^^ (s.saved ^^^ suffixValue s.cfgRule s.byteIndex ^^^ terminator) := by
      rw [padLanes_lanes, xorLane_getElem_eq_xor _ _ _ h25, xorLane_getElem_eq_xor _ _ _ h25, if_pos rfl,
        if_pos (by omega), BitVec.xor_assoc]
    refine ⟨hlane, fun h7 => ?_⟩
    have hsaved : laneByte s.saved 7 = 0#8 := laneByte_of_ushiftRight_eq_zero hunfilled h7.le
    rw [hlane, laneByte_xor, laneByte_xor, laneByte_xor, hsaved, laneByte_suffixValue _ (by decide), if_pos h7.symm,
      laneByte_terminator (by decide)]
    cases s.cfgRule <;> rfl
  · constructor
    · rw [padLanes_lanes, xorLane_getElem_eq_xor _ _ _ h25, xorLane_getElem_eq_xor _ _ _ h25, if_pos rfl,
        if_neg (by omega), BitVec.xor_zero]
    · rw [padLanes_lanes, xorLane_getElem_eq_xor _ _ _ hr25, xorLane_getElem_eq_xor _ _ _ hr25, if_neg (by omega),
        if_pos rfl, BitVec.xor_zero]
      rfl

/-- Settles O55: the suffixes differ in one lane, so the lanes do before PERMUTE, after it, and in the image. -/
theorem paddingRulesGiveDifferentImages : Obligations.PaddingRulesGiveDifferentImages := by
  intro s hp hi
  obtain ⟨hb, hw, -, hconfig⟩ := (invariantsHold_iff s).mp hi
  have h25 : s.wordIndex < 25 := by
    rw [legalConfig_iff] at hconfig
    omega
  refine ⟨_, _, exec_finalize_of_inInstance ⟨hp, hi⟩, exec_finalize_of_inInstance ⟨hp, hi⟩, lastStatus_respond _ _ _,
    lastStatus_respond _ _ _, fun himages => suffixValue_sha3_ne_keccak hb ?_⟩
  rw [lastData_respond, lastData_respond] at himages
  have hlanes := permute_injective (outImage_injective himages)
  have hlane := congrArg (·[s.wordIndex]) hlanes
  simp only [padLanes_lanes, xorLane_getElem_eq_xor _ _ _ h25, if_true] at hlane
  rwa [BitVec.xor_left_inj, BitVec.xor_right_inj, BitVec.xor_right_inj] at hlane

end Sys2Proof.Machine
end

