-- ==== Sys2Proof/Proofs/SpongeInstances.lean ====
section
/-! PROOFS. The statements of 41_sponge.md about commands one after another, and HASH (R115, R118, R119, R123, R124). -/

namespace Sys2Proof.Machine

/-- Settles O24: the counted run holds the message in closed form, and the commands leave its state. -/
theorem stateAfterAbsorbingInClosedForm : Obligations.StateAfterAbsorbingInClosedForm := by
  intro s b k chunks hb M R
  have hlegal := (legalWidth_iff b).mpr hb
  have hm := instanceCounted_afterMessage k chunks s hlegal
  obtain ⟨hcount, hposition⟩ := instanceCounted_count_and_position k chunks s hlegal
  have hrun := runCommands_new_absorbs k chunks [] s hlegal
  rw [List.append_nil] at hrun
  exact ⟨_, hrun, hm.byteIndex, hm.wordIndex, hm.saved, hm.lanes, hm.inInstance.phase, hm.cfgB, hm.cfgRule,
    hposition.symm, Prod.ext rfl hcount.symm⟩

/-- Settles O25: both chunkings leave the closed form of the same message. -/
theorem streamingEquivalence : Obligations.StreamingEquivalence := by
  intro s b k xs ys hb hbytes
  have hlegal := (legalWidth_iff b).mpr hb
  have hx := instanceCounted_afterMessage k xs s hlegal
  have hy := instanceCounted_afterMessage k ys s hlegal
  have hrunx := runCommands_new_absorbs k xs [] s hlegal
  have hruny := runCommands_new_absorbs k ys [] s hlegal
  rw [List.append_nil] at hrunx hruny
  rw [← hbytes] at hy
  refine ⟨_, _, _, _, hrunx, hruny, hx.lanes.trans hy.lanes.symm, hx.saved.trans hy.saved.symm,
    hx.byteIndex.trans hy.byteIndex.symm, hx.wordIndex.trans hy.wordIndex.symm,
    exec_finalize_of_inInstance hx.inInstance, exec_finalize_of_inInstance hy.inInstance, lastStatus_respond _ _ _,
    lastStatus_respond _ _ _, ?_⟩
  exact (hx.lastData_finalizeCounted (c := (_, 0)) hlegal).trans (hy.lastData_finalizeCounted (c := (_, 0)) hlegal).symm

/-- Settles O58: to the count of the message FINALIZE adds its one PERMUTE. -/
theorem permutationCountOfAnInstance : Obligations.PermutationCountOfAnInstance := by
  intro s b k chunks hb
  have hlegal := (legalWidth_iff b).mpr hb
  obtain ⟨hcount, -⟩ := instanceCounted_count_and_position k chunks s hlegal
  exact ⟨_, runCommands_new_absorbs_finalize k chunks s hlegal, Prod.ext rfl (congrArg (· + 1) hcount.symm)⟩

/-- Settles O29: the lanes FINALIZE leaves are those of the padded message, and its response is their image. -/
theorem finalizeAbsorbsThePaddedMessage : Obligations.FinalizeAbsorbsThePaddedMessage := by
  intro s b k chunks hb
  have hlegal := (legalWidth_iff b).mpr hb
  have hm := instanceCounted_afterMessage k chunks s hlegal
  exact ⟨_, runCommands_new_absorbs_finalize k chunks s hlegal, rfl, lastStatus_finalizeCounted _,
    hm.permute_padLanes hlegal, hm.lastData_finalizeCounted hlegal, hm.digestWindow_finalizeCounted hlegal⟩

/-- Settles O30: the payloads of HASH are a chunking of its message; an illegal width stops the run at NEW. -/
theorem hashComputesTheDigest : Obligations.HashComputesTheDigest := by
  intro s bytes b k
  refine ⟨fun hb => ?_, fun h256 h384 h512 => ?_⟩
  · have hlegal := (legalWidth_iff b).mpr hb
    obtain ⟨payloads, hcommands, hflat, -⟩ := hashExpansion bytes b k
    have hm := instanceCounted_afterMessage k payloads s hlegal
    have hrun := runCommands_new_absorbs_finalize k payloads s hlegal
    rw [← hcommands] at hrun
    refine ⟨(finalizeCounted (instanceCounted b k payloads s)).1, (runHash_of_runCommands hrun).trans ?_, rfl, hm.fault⟩
    rw [hashResult_of_ok (lastStatus_finalizeCounted _), hm.digestWindow_finalizeCounted hlegal, hflat]
  · obtain ⟨hb, -⟩ | ⟨-, hnew⟩ := execNew_cases b k s
    · rw [legalWidth_iff] at hb
      omega
    · rw [runHash_of_runCommands (runCommands_of_takeException _ hnew), hashResult_takeException]
      rfl

end Sys2Proof.Machine
end

