-- ==== Sys2Proof/Proofs/CommandExceptions.lean ====
section
/-! PROOFS. Which exception a command raises in a state, in the order of R146, and what raising one or completing does
to the record and the responses (R140, R145). -/

namespace Sys2Proof.Machine

/-! ### The one exception of a command -/

/-- The checks that ABSORB and FINALIZE share: the phase, then the invariants (R142, R144). -/
def instanceException (s : State) : Option Exc :=
  if s.phase ≠ .absorbing then some .invalidState
  else if invariantsHold s then none else some .invariantViolation

/-- The exception that a command raises, if any (R140, R146). -/
def commandException (s : State) : Instr → Option Exc
  | .new b _ => if legalWidth b then none else some .invalidConfiguration
  | .absorb _ => instanceException s
  | .finalize => instanceException s

theorem instanceException_of_ne_absorbing {s : State} (hp : s.phase ≠ .absorbing) :
    instanceException s = some .invalidState := if_pos hp

theorem instanceException_of_broken {s : State} (hp : s.phase = .absorbing) (hi : invariantsHold s = false) :
    instanceException s = some .invariantViolation :=
  (if_neg (not_not_intro hp)).trans (if_neg (by simp [hi]))

theorem instanceException_of_invariants {s : State} (hp : s.phase = .absorbing) (hi : invariantsHold s = true) :
    instanceException s = none :=
  (if_neg (not_not_intro hp)).trans (if_pos hi)

theorem commandException_of_absorb_or_finalize {i : Instr} (h : i = .finalize ∨ ∃ payload, i = .absorb payload)
    (s : State) : commandException s i = instanceException s := by
  obtain rfl | ⟨payload, rfl⟩ := h <;> rfl

/-- In a state that meets R30 no command raises InvariantViolation (R144). -/
theorem commandException_ne_invariantViolation {s : State} (hs : s.Inv) (i : Instr) :
    commandException s i ≠ some .invariantViolation := by
  have hinstance : instanceException s ≠ some .invariantViolation := by
    by_cases hp : s.phase = .absorbing
    · have hi : invariantsHold s = true := hs.resolve_left (by simp [hp])
      simp [instanceException_of_invariants hp hi]
    · simp [instanceException_of_ne_absorbing hp]
  cases i with
  | new b k => cases hb : legalWidth b <;> simp [commandException, hb]
  | absorb payload => exact hinstance
  | finalize => exact hinstance

/-- From `s` to `t` nothing is reported: the record and the responses stay. -/
structure SameReports (s t : State) : Prop where
  fault : t.fault = s.fault
  responses : t.responses = s.responses

/-- A command raises its exception and does nothing else, or completes with status 0 and records nothing. -/
theorem exec_exception_cases (i : Instr) (s : State) :
    (commandException s i = none ∧ ∃ data t, exec i s = .next (respond statusOk data t) ∧ SameReports s t) ∨
      ∃ e, commandException s i = some e ∧ exec i s = .next (takeException e s) := by
  cases i with
  | new b k =>
    obtain ⟨hb, h⟩ | ⟨hb, h⟩ := execNew_cases b k s
    · exact .inl ⟨if_pos hb, _, _, h, rfl, rfl⟩
    · exact .inr ⟨_, if_neg (by simp [hb]), h⟩
  | absorb payload =>
    obtain ⟨hp, h⟩ | ⟨hp, hi, h⟩ | ⟨hp, hi, h⟩ := execAbsorb_cases payload s
    · exact .inr ⟨_, instanceException_of_ne_absorbing hp, h⟩
    · exact .inr ⟨_, instanceException_of_broken hp hi, h⟩
    · have f := absorbData_frame payload s
      exact .inl ⟨instanceException_of_invariants hp hi, _, _, h, f.fault, f.responses⟩
  | finalize =>
    obtain ⟨hp, h⟩ | ⟨hp, hi, h⟩ | ⟨hp, hi, h⟩ := execFinalize_cases s
    · exact .inr ⟨_, instanceException_of_ne_absorbing hp, h⟩
    · exact .inr ⟨_, instanceException_of_broken hp hi, h⟩
    · exact .inl ⟨instanceException_of_invariants hp hi, _, _, h, rfl, rfl⟩

theorem exec_of_commandException {i : Instr} {s : State} {e : Exc} (h : commandException s i = some e) :
    exec i s = .next (takeException e s) := by
  obtain ⟨hnone, -⟩ | ⟨e', he', hexec⟩ := exec_exception_cases i s
  · cases h.symm.trans hnone
  · cases h.symm.trans he'
    exact hexec

/-! ### The status of a response and the record -/

/-- A command responds once, with the code of its exception, or with 0 if it has none (R75, R146). -/
theorem exec_status (i : Instr) (s : State) :
    ∃ t data, exec i s = .next t ∧
      t.responses = s.responses ++ [⟨(commandException s i).elim statusOk excStatus, data⟩] := by
  obtain ⟨hnone, data, t, hexec, hsame⟩ | ⟨e, he, hexec⟩ := exec_exception_cases i s
  · exact ⟨_, data, hexec, by rw [hnone, respond_responses, hsame.responses]; rfl⟩
  · exact ⟨_, [], hexec, by rw [he]; rfl⟩

theorem commandException_new_status (b : Nat) (k : PadRule) (s : State) :
    (commandException s (.new b k)).elim statusOk excStatus = if b = 256 ∨ b = 384 ∨ b = 512 then 0 else 1 := by
  simp only [commandException, legalWidth_iff]
  split_ifs <;> rfl

theorem instanceException_status (s : State) :
    (instanceException s).elim statusOk excStatus =
      if s.phase ≠ .absorbing then 2 else if invariantsHold s = true then 0 else 4 := by
  unfold instanceException
  split_ifs <;> rfl

/-- The rule for the record in the form of R145. -/
theorem stickyFault_eq_ite (e : Exc) (f : Option Exc) : stickyFault e f = if f = none then some e else f := by
  cases f <;> rfl

/-! ### InvariantViolation is not reported -/

/-- InvariantViolation is neither recorded nor responded (R140). -/
structure NoViolationReported (s : State) : Prop where
  fault : s.fault ≠ some .invariantViolation
  responses : ∀ r ∈ s.responses, r.status ≠ 4

theorem NoViolationReported.of_sameReports {s t : State} (h : NoViolationReported s) (hst : SameReports s t) :
    NoViolationReported t where
  fault := hst.fault ▸ h.fault
  responses := hst.responses ▸ h.responses

theorem NoViolationReported.respond {s : State} (h : NoViolationReported s) {status : Byte} (hstatus : status ≠ 4)
    (data : List Byte) : NoViolationReported (respond status data s) where
  fault := h.fault
  responses r hr := by
    obtain hr | hr := List.mem_append.mp hr
    · exact h.responses r hr
    · obtain rfl := List.mem_singleton.mp hr
      exact hstatus

theorem NoViolationReported.recordFault {s : State} (h : NoViolationReported s) {e : Exc}
    (he : e ≠ .invariantViolation) : NoViolationReported (recordFault e s) where
  fault := by
    obtain ⟨-, hset⟩ | ⟨g, hg, hkept⟩ := stickyFault_cases e s.fault
    · simpa [hset] using he
    · rw [recordFault_fault, hkept, ← hg]
      exact h.fault
  responses := h.responses

theorem excStatus_eq_four_iff (e : Exc) : excStatus e = 4 ↔ e = .invariantViolation := by
  cases e <;> decide

theorem NoViolationReported.takeException {s : State} (h : NoViolationReported s) {e : Exc}
    (he : e ≠ .invariantViolation) : NoViolationReported (takeException e s) :=
  (h.recordFault he).respond (mt (excStatus_eq_four_iff e).mp he) []

theorem NoViolationReported.exec {i : Instr} {s t : State} (h : NoViolationReported s) (hs : s.Inv)
    (hexec : exec i s = .next t) : NoViolationReported t := by
  obtain ⟨-, data, u, g, hsame⟩ | ⟨e, he, g⟩ := exec_exception_cases i s <;> cases hexec.symm.trans g
  · exact (h.of_sameReports hsame).respond (by decide) data
  · exact h.takeException fun hviolation => commandException_ne_invariantViolation hs i (hviolation ▸ he)

/-- An illegal word reports InvalidCommand, so only the command of a record could report InvariantViolation. -/
theorem NoViolationReported.step {s t : State} (h : NoViolationReported s) (hs : s.Inv) (hstep : step s = .next t) :
    NoViolationReported t := by
  have hinput (rest : List Byte) : NoViolationReported (setInput rest s) := h.of_sameReports ⟨rfl, rfl⟩
  obtain ⟨-, g⟩ | ⟨_, rest, -, g⟩ | ⟨i, rest, -, g⟩ := step_cases s
  · cases hstep.symm.trans g
    exact h
  · cases hstep.symm.trans g
    exact (hinput rest).takeException (by decide)
  · exact (hinput rest).exec hs (g.symm.trans hstep)

/-- The host's events report nothing: they take responses away or clear the record at most. -/
theorem NoViolationReported.onEvent {s : State} (h : NoViolationReported s) (hs : s.Inv) (e : Event) :
    NoViolationReported (onEvent e s) := by
  cases e with
  | engineStep => exact h.step hs (step_eq_next_afterStep s)
  | send bytes => exact h.of_sameReports ⟨rfl, rfl⟩
  | take =>
    rw [Machine.onEvent, takeResponse_snd]
    exact ⟨h.fault, fun r hr => h.responses r (List.mem_of_mem_tail hr)⟩
  | readOutAt a => exact h
  | readFaultRegister => exact h
  | assertReset => exact ⟨by simp [Machine.onEvent], h.responses⟩

/-! ### Runs from reset -/

/-- What holds at reset and is kept by every event holds in every reachable state. -/
theorem State.Reachable.induction {P : State → Prop} (hreset : P State.reset)
    (hevent : ∀ e s, P s → P (onEvent e s)) {s : State} (h : s.Reachable) : P s := by
  obtain ⟨events, rfl⟩ := h
  exact List.foldlRecOn events _ hreset fun t ht e _ => hevent e t ht

end Sys2Proof.Machine
end

