-- ==== Sys2Proof/Proofs/Exceptions.lean ====
section
/-! PROOFS. The statements of 60_exceptions.md. -/

namespace Sys2Proof.Machine

/-- Settles O59: with the invariants in place no check of a command answers InvariantViolation, and the other events
write no report. -/
theorem invariantViolationStaysUnreported : Obligations.InvariantViolationStaysUnreported := by
  rintro s e ⟨hs, hfault, hresponses⟩
  obtain ⟨hfault', hresponses'⟩ := NoViolationReported.onEvent ⟨hfault, hresponses⟩ hs e
  exact ⟨onEvent_keeps_inv e hs, hfault', hresponses'⟩

/-- Settles O43, by induction on the run: the three hold at reset, and O59 is its step. -/
theorem invariantViolationIsUnreachable : Obligations.InvariantViolationIsUnreachable :=
  fun _ => State.Reachable.induction ⟨invariantsHoldAtReset, by decide, by simp [State.reset]⟩
    fun e s => invariantViolationStaysUnreported s e

/-- Settles O15: the phase is the first check of both commands, and the step has moved past the whole record
before it. -/
theorem instanceCommandsNeedAbsorbing : Obligations.InstanceCommandsNeedAbsorbing := by
  intro s i hi hp
  have hexec (rest : List Byte) : exec i (setInput rest s) = .next (takeException .invalidState (setInput rest s)) :=
    exec_of_commandException
      ((commandException_of_absorb_or_finalize hi _).trans (instanceException_of_ne_absorbing hp))
  refine ⟨hexec s.input, fun rest hwf hin => ?_⟩
  exact (step_of_decode_record (hin ▸ decode_encode rest hwf)).trans (hexec rest)

/-- Settles O35: a status other than 0 is that of the command's exception, and taking it is the whole effect. -/
theorem exceptionChangesOnlyTheRecord : Obligations.ExceptionChangesOnlyTheRecord := by
  intro i s t status data h hresponses hstatus
  obtain ⟨-, _, u, g, hsame⟩ | ⟨e, -, g⟩ := exec_exception_cases i s <;> cases h.symm.trans g
  · rw [respond_responses, hsame.responses] at hresponses
    cases List.append_cancel_left hresponses
    exact absurd rfl hstatus
  · cases List.append_cancel_left hresponses
    refine ⟨e, rfl, ?_⟩
    rw [← stickyFault_eq_ite]
    rfl

/-- Settles O37: each of the four contradicts its clause of the invariants. -/
theorem brokenInvariantIsReported : Obligations.BrokenInvariantIsReported := by
  intro s i hi hp hbroken
  have hinv : invariantsHold s = false := by
    rw [← Bool.not_eq_true, invariantsHold_iff, legalConfig_iff]
    rintro ⟨hb, hw, hunfilled, hconfig⟩
    obtain hb' | hw' | ⟨n, hn, -, hbyte⟩ | hconfig' := hbroken
    · omega
    · omega
    · exact hbyte (laneByte_of_ushiftRight_eq_zero hunfilled hn)
    · exact hconfig' hconfig
  exact exec_of_commandException
    ((commandException_of_absorb_or_finalize hi s).trans (instanceException_of_broken hp hinv))

/-- Settles O38: the decoder rejects an illegal word before any command; a command's status is that of its exception,
and its checks stand in the order of the statement. -/
theorem exceptionPriority : Obligations.ExceptionPriority := by
  refine ⟨fun s hdr rest hin hill => ?_, fun s i => ?_⟩
  · obtain ⟨-, hword⟩ := illegalWordsRaiseInvalidCommand
    obtain ⟨-, -, hstep⟩ := hword hdr rest
    exact ⟨_, hstep s hin hill, rfl⟩
  · obtain ⟨t, data, hexec, hresponses⟩ := exec_status i s
    refine ⟨t, data, hexec, hresponses.trans (congrArg (s.responses ++ [⟨·, data⟩]) ?_)⟩
    cases i with
    | new b k => exact commandException_new_status b k s
    | absorb payload => exact instanceException_status s
    | finalize => exact instanceException_status s

end Sys2Proof.Machine
end

