-- ==== Sys2Proof/Proofs/Reset.lean ====
section
/-! PROOFS. The statements of 70_reset_and_hazards.md, and that nothing but RESET leads back to Idle (R170). -/

namespace Sys2Proof.Machine

/-! ### The way back to Idle -/

/-- A command enters Absorbing or Finalized, or stays in its phase (R31). -/
theorem exec_phase_ne_idle {i : Instr} {s t : State} (hs : s.phase ≠ .idle) (h : exec i s = .next t) :
    t.phase ≠ .idle := by
  obtain ⟨_, _, -, -, g⟩ | ⟨payload, -, -, -, g⟩ | ⟨-, -, -, g⟩ | ⟨_, g⟩ := exec_cases i s <;>
    cases h.symm.trans g
  · simp
  · rwa [respond_phase, (absorbData_frame payload s).phase]
  · simp
  · exact hs

/-- The same of a whole step, which stays in its phase where it runs no command. -/
theorem step_phase_ne_idle {s t : State} (hs : s.phase ≠ .idle) (h : step s = .next t) : t.phase ≠ .idle := by
  obtain ⟨-, g⟩ | ⟨_, _, -, g⟩ | ⟨_, rest, -, g⟩ := step_cases s
  · cases h.symm.trans g
    exact hs
  · cases h.symm.trans g
    exact hs
  · exact exec_phase_ne_idle (s := setInput rest s) hs (g.symm.trans h)

/-- Every event but RESET keeps the engine out of Idle (R170). -/
theorem onEvent_phase_ne_idle {e : Event} {s : State} (hs : s.phase ≠ .idle) (he : e ≠ .assertReset) :
    (onEvent e s).phase ≠ .idle := by
  obtain ⟨-, h⟩ | ⟨h, -⟩ | ⟨_, _, h⟩ := onEvent_cases e s
  · exact step_phase_ne_idle hs h
  · exact absurd h he
  · rw [h]
    exact hs

/-! ### The statements -/

/-- Settles O45: RESET's fields are read off; every other event keeps a set record, and stays out of Idle. -/
theorem resetAloneClearsFaultAndInstance : Obligations.ResetAloneClearsFaultAndInstance := by
  refine ⟨fun _ => ⟨rfl, rfl, rfl, rfl, rfl, rfl⟩, fun s e hs hclear => ?_, fun s e hs hidle => ?_⟩
  · obtain ⟨f, hf⟩ := Option.ne_none_iff_exists'.mp hs
    by_contra he
    simp [onEvent_keeps_set_fault hf he] at hclear
  · by_contra he
    exact onEvent_phase_ne_idle hs he hidle

/-- Settles O13: by R111 (O11) NEW writes every field but `FAULT` and the channels from its operands alone, and RESET has
cleared `FAULT`. -/
theorem newForgetsThePast : Obligations.NewForgetsThePast := by
  intro s u b k hb
  obtain ⟨hreset, -⟩ := newStartsAFreshInstance (resetEvent u) b k
  obtain ⟨hany, -⟩ := newStartsAFreshInstance s b k
  exact ⟨_, _, hreset hb, hany hb, rfl, rfl⟩

end Sys2Proof.Machine
end

