-- ==== Sys2Proof/Proofs/ListedWords.lean ====
section
/-! PROOFS. The listed header words and byte streams of 95_test_vectors.md V12, read off the decoder's rules. -/

namespace Sys2Proof

/-- The words whose opcode is none of the three defined ones (R76 a). -/
theorem decodeHeader_eq_undefinedOpcode_iff (hdr : Word32) :
    decodeHeader hdr = .illegal .undefinedOpcode ↔ hdr.toNat / 2 ^ 24 = 0 ∨ 3 < hdr.toNat / 2 ^ 24 := by
  rw [decodeHeader_eq_ite_toNat]
  split_ifs <;> simp <;> omega

/-- The record of a well-formed command, alone in the channel, decodes to the command (R71). -/
theorem decode_of_encode_eq {i : Instr} {bytes : List Byte} (hwf : wellFormed i = true) (h : encode i = bytes) :
    decode bytes = .record i [] := by
  simpa [h] using decode_encode [] hwf

end Sys2Proof

namespace Sys2Proof.Machine

/-- Settles O7: each word has the fields its kind of header asks for, and each byte stream is the encoding of a
well-formed command. -/
theorem listedHeaderWordsDecode : Obligations.ListedHeaderWordsDecode := by
  have new {hdr b k} := (decodeHeader_eq_new_iff hdr b k).mpr
  have absorb {hdr len} := (decodeHeader_eq_absorb_iff hdr len).mpr
  have finalize {hdr} := (decodeHeader_eq_finalize_iff hdr).mpr
  have reservedNew {hdr} := (decodeHeader_eq_reservedNew_iff hdr).mpr
  have reservedFinalize {hdr} := (decodeHeader_eq_reservedFinalize_iff hdr).mpr
  have undefinedOpcode {hdr} := (decodeHeader_eq_undefinedOpcode_iff hdr).mpr
  exact ⟨new (by decide), new (by decide), new (by decide), reservedNew (by decide), reservedNew (by decide),
    absorb (by decide), absorb (by decide), absorb (by decide), finalize rfl, reservedFinalize (by decide),
    undefinedOpcode (by decide), undefinedOpcode (by decide), undefinedOpcode (by decide),
    decode_of_encode_eq rfl (by decide), decode_of_encode_eq rfl (by decide), decode_of_encode_eq rfl (by decide)⟩

end Sys2Proof.Machine
end
